-- ==== Sys2Proof/Word.lean ====
section
/-! DEFINITION. The value types of spec/00_scope.md section 6.2, and the two classes of operand of spec/30_encoding.md R68. -/

namespace Sys2Proof

/-- A Word: an unsigned value 0..32767, 15 bits (00_scope.md section 6.2). -/
abbrev Word := BitVec 15

/-- A Cell: the 16-bit content of one memory cell, or one encoded word of the instruction stream
(00_scope.md section 6.2, conflict C1). -/
abbrev Cell := BitVec 16

/-- The program counter: 16 bits, 0..32768 while the machine runs (R13). The bound is an invariant of the
machine (`Sys2Proof.Machine.Inv`), not part of the type. -/
abbrev Pc := BitVec 16

/-- A register index 0..7 (00_scope.md section 6.2). -/
abbrev RegIdx := Fin 8

/-- An operand of mode L after the classification of R68: a literal, a register, or a cell that is
neither (R66: 32776..65535), kept as it was fetched. -/
inductive Src where
  | lit (v : Word)
  | reg (r : RegIdx)
  | invalid (w : Cell)
deriving DecidableEq, Repr

/-- An operand of mode R after the classification of R68: a destination register, or a cell that names
none (R67: 0..32767 or 32776..65535), kept as it was fetched. -/
inductive Dst where
  | reg (r : RegIdx)
  | invalid (w : Cell)
deriving DecidableEq, Repr

end Sys2Proof
end

