-- ==== Sys2Proof/Syntax.lean ====
section
/-! DEFINITION. The instruction set: one constructor per row of spec/opcode_table.json, operands in stream
order a, b, c with the modes of spec/30_encoding.md R63 (`Dst` for mode R, `Src` for mode L). -/

namespace Sys2Proof

/-- The 22 instructions (R63). -/
inductive Instr where
  /-- opcode 0, R170 -/
  | halt
  /-- opcode 1, R110 -/
  | set (a : Dst) (b : Src)
  /-- opcode 2, R111 -/
  | push (a : Src)
  /-- opcode 3, R112 -/
  | pop (a : Dst)
  /-- opcode 4, R120 -/
  | eq (a : Dst) (b c : Src)
  /-- opcode 5, R121 -/
  | gt (a : Dst) (b c : Src)
  /-- opcode 6, R130 -/
  | jmp (a : Src)
  /-- opcode 7, R131 -/
  | jt (a b : Src)
  /-- opcode 8, R132 -/
  | jf (a b : Src)
  /-- opcode 9, R140 -/
  | add (a : Dst) (b c : Src)
  /-- opcode 10, R141 -/
  | mult (a : Dst) (b c : Src)
  /-- opcode 11, R142 -/
  | mod (a : Dst) (b c : Src)
  /-- opcode 12, R143 -/
  | and (a : Dst) (b c : Src)
  /-- opcode 13, R144 -/
  | or (a : Dst) (b c : Src)
  /-- opcode 14, R145 -/
  | not (a : Dst) (b : Src)
  /-- opcode 15, R160 -/
  | rmem (a : Dst) (b : Src)
  /-- opcode 16, R161 -/
  | wmem (a b : Src)
  /-- opcode 17, R133 -/
  | call (a : Src)
  /-- opcode 18, R134 -/
  | ret
  /-- opcode 19, R174 -/
  | out (a : Src)
  /-- opcode 20, R176: the mnemonic is `in`, a word Lean keeps for itself -/
  | inp (a : Dst)
  /-- opcode 21, R171 -/
  | noop
deriving DecidableEq, Repr

/-- The operands of mode R, in stream order (R63: only operand a ever has mode R). -/
def Instr.dsts : Instr → List Dst
  | .halt => []
  | .set a _ => [a]
  | .push _ => []
  | .pop a => [a]
  | .eq a _ _ => [a]
  | .gt a _ _ => [a]
  | .jmp _ => []
  | .jt _ _ => []
  | .jf _ _ => []
  | .add a _ _ => [a]
  | .mult a _ _ => [a]
  | .mod a _ _ => [a]
  | .and a _ _ => [a]
  | .or a _ _ => [a]
  | .not a _ => [a]
  | .rmem a _ => [a]
  | .wmem _ _ => []
  | .call _ => []
  | .ret => []
  | .out _ => []
  | .inp a => [a]
  | .noop => []

/-- The operands of mode L, in stream order. Every operand of mode L follows the operand of mode R, if
there is one (R63). -/
def Instr.srcs : Instr → List Src
  | .halt => []
  | .set _ b => [b]
  | .push a => [a]
  | .pop _ => []
  | .eq _ b c => [b, c]
  | .gt _ b c => [b, c]
  | .jmp a => [a]
  | .jt a b => [a, b]
  | .jf a b => [a, b]
  | .add _ b c => [b, c]
  | .mult _ b c => [b, c]
  | .mod _ b c => [b, c]
  | .and _ b c => [b, c]
  | .or _ b c => [b, c]
  | .not _ b => [b]
  | .rmem _ b => [b]
  | .wmem a b => [a, b]
  | .call a => [a]
  | .ret => []
  | .out a => [a]
  | .inp _ => []
  | .noop => []

/-- The operand count n of R63. -/
def Instr.operandCount (i : Instr) : Nat := i.dsts.length + i.srcs.length

end Sys2Proof
end

