-- ==== Sys2Proof/WellFormed.lean ====
section
/-! DEFINITION. Well-formed instructions: those that stand for some words of the instruction stream. The two
checks are that an operand kept as `invalid` is a cell that R68 really classes as invalid for its mode.
An instruction with an invalid operand is still an instruction of the machine: it runs and raises
InvalidOperand (R94, R232). `Instr.operandsLegal` says that it has none. -/

namespace Sys2Proof

/-- R68, mode L: the invalid cells are 32776..65535. -/
def Src.wf : Src → Bool
  | .lit _ => true
  | .reg _ => true
  | .invalid w => decide (32775 < w.toNat)

/-- R68, mode R: the invalid cells are 0..32767 and 32776..65535. -/
def Dst.wf : Dst → Bool
  | .reg _ => true
  | .invalid w => decide (w.toNat < 32768) || decide (32775 < w.toNat)

/-- Every operand is one that the words of an instruction can hold. -/
def Instr.wf (i : Instr) : Bool := i.dsts.all Dst.wf && i.srcs.all Src.wf

/-- The operand is a literal or a register (R66). -/
def Src.legal : Src → Bool
  | .lit _ => true
  | .reg _ => true
  | .invalid _ => false

/-- The operand names a register (R67). -/
def Dst.legal : Dst → Bool
  | .reg _ => true
  | .invalid _ => false

/-- No operand of the instruction raises InvalidOperand (R94). -/
def Instr.operandsLegal (i : Instr) : Bool := i.dsts.all Dst.legal && i.srcs.all Src.legal

end Sys2Proof
end

