-- ==== Sys2Proof/Decode.lean ====
section
/-! DEFINITION. Decoding of cells and encoding to cells, from spec/30_encoding.md R60 to R68. -/

namespace Sys2Proof

/-- Why cells are not an instruction. The cells given are those from the program counter up to the end of
memory, so running out of cells is running past address 32767 (R92, R93). -/
inductive DecodeError where
  /-- no cell for the opcode (R92: `pc` = 32768) -/
  | noOpcodeCell
  /-- an opcode outside 0..21 (R65) -/
  | illegalOpcode (op : Cell)
  /-- fewer operand cells than the opcode needs (R93: addr + n > 32767) -/
  | missingOperandCell (op : Cell)
deriving DecidableEq, Repr

/-- R68, mode L. -/
def srcOfCell (w : Cell) : Src :=
  if w.toNat ≤ 32767 then .lit (w.setWidth 15)
  else if h : w.toNat - 32768 < 8 then .reg ⟨w.toNat - 32768, h⟩
  else .invalid w

/-- R68, mode R. -/
def dstOfCell (w : Cell) : Dst :=
  if w.toNat ≤ 32767 then .invalid w
  else if h : w.toNat - 32768 < 8 then .reg ⟨w.toNat - 32768, h⟩
  else .invalid w

/-- The cells after an opcode with one operand. -/
def takeOne (op : Cell) (k : Cell → Instr) : List Cell → Except DecodeError (Instr × List Cell)
  | wa :: rest => .ok (k wa, rest)
  | [] => .error (.missingOperandCell op)

/-- The cells after an opcode with two operands. -/
def takeTwo (op : Cell) (k : Cell → Cell → Instr) : List Cell → Except DecodeError (Instr × List Cell)
  | wa :: wb :: rest => .ok (k wa wb, rest)
  | [_] => .error (.missingOperandCell op)
  | [] => .error (.missingOperandCell op)

/-- The cells after an opcode with three operands. -/
def takeThree (op : Cell) (k : Cell → Cell → Cell → Instr) :
    List Cell → Except DecodeError (Instr × List Cell)
  | wa :: wb :: wc :: rest => .ok (k wa wb wc, rest)
  | [_, _] => .error (.missingOperandCell op)
  | [_] => .error (.missingOperandCell op)
  | [] => .error (.missingOperandCell op)

/-- The opcode map of R63 over the whole opcode cell (R62): the instruction with opcode `op` whose operand
cells follow in ascending order a, b, c (R60); any other opcode is rejected by name (R65). -/
def decodeOpcode (op : Cell) (rest : List Cell) : Except DecodeError (Instr × List Cell) :=
  match op.toNat with
  | 0 => .ok (.halt, rest)
  | 1 => takeTwo op (fun wa wb => .set (dstOfCell wa) (srcOfCell wb)) rest
  | 2 => takeOne op (fun wa => .push (srcOfCell wa)) rest
  | 3 => takeOne op (fun wa => .pop (dstOfCell wa)) rest
  | 4 => takeThree op (fun wa wb wc => .eq (dstOfCell wa) (srcOfCell wb) (srcOfCell wc)) rest
  | 5 => takeThree op (fun wa wb wc => .gt (dstOfCell wa) (srcOfCell wb) (srcOfCell wc)) rest
  | 6 => takeOne op (fun wa => .jmp (srcOfCell wa)) rest
  | 7 => takeTwo op (fun wa wb => .jt (srcOfCell wa) (srcOfCell wb)) rest
  | 8 => takeTwo op (fun wa wb => .jf (srcOfCell wa) (srcOfCell wb)) rest
  | 9 => takeThree op (fun wa wb wc => .add (dstOfCell wa) (srcOfCell wb) (srcOfCell wc)) rest
  | 10 => takeThree op (fun wa wb wc => .mult (dstOfCell wa) (srcOfCell wb) (srcOfCell wc)) rest
  | 11 => takeThree op (fun wa wb wc => .mod (dstOfCell wa) (srcOfCell wb) (srcOfCell wc)) rest
  | 12 => takeThree op (fun wa wb wc => .and (dstOfCell wa) (srcOfCell wb) (srcOfCell wc)) rest
  | 13 => takeThree op (fun wa wb wc => .or (dstOfCell wa) (srcOfCell wb) (srcOfCell wc)) rest
  | 14 => takeTwo op (fun wa wb => .not (dstOfCell wa) (srcOfCell wb)) rest
  | 15 => takeTwo op (fun wa wb => .rmem (dstOfCell wa) (srcOfCell wb)) rest
  | 16 => takeTwo op (fun wa wb => .wmem (srcOfCell wa) (srcOfCell wb)) rest
  | 17 => takeOne op (fun wa => .call (srcOfCell wa)) rest
  | 18 => .ok (.ret, rest)
  | 19 => takeOne op (fun wa => .out (srcOfCell wa)) rest
  | 20 => takeOne op (fun wa => .inp (dstOfCell wa)) rest
  | 21 => .ok (.noop, rest)
  | _ => .error (.illegalOpcode op)

/-- The decoder: total on any cells. It gives the instruction and the cells after it. -/
def decode : List Cell → Except DecodeError (Instr × List Cell)
  | [] => .error .noOpcodeCell
  | op :: rest => decodeOpcode op rest

/-- The opcode of each instruction (R63). -/
def Instr.opcode : Instr → Cell
  | .halt => 0#16
  | .set _ _ => 1#16
  | .push _ => 2#16
  | .pop _ => 3#16
  | .eq _ _ _ => 4#16
  | .gt _ _ _ => 5#16
  | .jmp _ => 6#16
  | .jt _ _ => 7#16
  | .jf _ _ => 8#16
  | .add _ _ _ => 9#16
  | .mult _ _ _ => 10#16
  | .mod _ _ _ => 11#16
  | .and _ _ _ => 12#16
  | .or _ _ _ => 13#16
  | .not _ _ => 14#16
  | .rmem _ _ => 15#16
  | .wmem _ _ => 16#16
  | .call _ => 17#16
  | .ret => 18#16
  | .out _ => 19#16
  | .inp _ => 20#16
  | .noop => 21#16

/-- The cell of an operand of mode L: a literal is itself, register i is 32768 + i (R66). -/
def cellOfSrc : Src → Cell
  | .lit v => v.setWidth 16
  | .reg r => BitVec.ofNat 16 (32768 + r.val)
  | .invalid w => w

/-- The cell of an operand of mode R: register i is 32768 + i (R67). -/
def cellOfDst : Dst → Cell
  | .reg r => BitVec.ofNat 16 (32768 + r.val)
  | .invalid w => w

/-- The encoder: the opcode cell, then the operand cells a, b, c (R60, R61). -/
def encode (i : Instr) : List Cell :=
  i.opcode :: (i.dsts.map cellOfDst ++ i.srcs.map cellOfSrc)

/-- The four cells that an instruction's bits stand for, bit 0 the least significant bit of the first
cell, all bits above `nbits` zero: the numbering of spec/opcode_table.json, cells at ascending addresses
(R60). -/
def tableCells (nbits w : Nat) : List Cell :=
  let v := w % 2 ^ nbits
  [BitVec.ofNat 16 v, BitVec.ofNat 16 (v / 2 ^ 16), BitVec.ofNat 16 (v / 2 ^ 32),
    BitVec.ofNat 16 (v / 2 ^ 48)]

/-- The instruction the decoder reads from an instruction's bits, numbered as spec/opcode_table.json
numbers them. -/
def decodeTableWord (nbits w : Nat) : Option Instr :=
  match decode (tableCells nbits w) with
  | .ok (i, _) => some i
  | .error _ => none

end Sys2Proof
end

