-- ==== Sys2Proof/Config.lean ====
section
/-! DEFINITION. The configuration of a session: the parameters of spec/00_scope.md section 5 that reach the
block on its CFG port (R25, R201). IMAGE and LINE_SOURCE, the other two parameters, are arguments of
`Sys2Proof.Machine.launch`. The spec leaves no value free, so there is no free value here. -/

namespace Sys2Proof

/-- The seven parameters of the CFG port, constant during a session (R25, R201). -/
structure Config where
  /-- CAL_ENABLE: whether the CalibrationController is present and active (decision D23). -/
  calEnable : Bool
  /-- CAL_REG: index of the designated register. -/
  calReg : RegIdx
  /-- ARM_STR: the arming marker. -/
  armStr : List Word
  /-- ACC_STR: the acceptance oracle. -/
  accStr : List Word
  /-- REJ_STR: the rejection oracle. -/
  rejStr : List Word
  /-- CAND_FIRST: the first candidate. -/
  candFirst : Word
  /-- CAND_LAST: the last candidate. -/
  candLast : Word
deriving DecidableEq, Repr

/-- The constraints of 00_scope.md section 5 that the types do not already carry: the three strings are
not empty and CAND_FIRST <= CAND_LAST. -/
def Config.valid (c : Config) : Bool :=
  !c.armStr.isEmpty && !c.accStr.isEmpty && !c.rejStr.isEmpty &&
    decide (c.candFirst.toNat ≤ c.candLast.toNat)

/-- The configuration that `State.reset` holds: the plain engine, CAL_ENABLE = false (decision D23 and the
convention of 95_test_vectors.md). DESIGN CHOICE (notes/assumptions/6.md): the spec gives the other six
no values. With CAL_ENABLE = false no rule reads five of them, and CAND_FIRST only fixes `candidate`. -/
def Config.plainEngine : Config where
  calEnable := false
  calReg := 0
  armStr := [0]
  accStr := [0]
  rejStr := [0]
  candFirst := 0
  candLast := 32767

end Sys2Proof
end

