-- ==== Sys2Proof/Machine/State.lean ====
section
/-! DEFINITION. The state of the block (spec/10_state.md), its value after reset (spec/70_reset_and_hazards.md
R260, R261), and the ways a step ends without a next state. -/

namespace Sys2Proof.Machine

/-- The seven causes of a fault (R230). The machine takes every one of them by the shared operation
`State.faulted` of Machine/Ops.lean: the answer is a next state. -/
inductive Cause where
  | illegalOpcode
  | invalidOperand
  | addressOutOfRange
  | stackUnderflow
  | inputExhausted
  | divideByZero
  | nonWordValue
deriving DecidableEq, Repr

/-- The fault record (R21): the cause, the address of the opcode word, the opcode Cell or none. -/
structure FaultRecord where
  cause : Cause
  addr : Pc
  opcode : Option Cell
deriving DecidableEq, Repr

/-- The run status (R20). The fault record lives in `faulted`, its one home. -/
inductive Status where
  | running
  | halted
  | faulted (rec : FaultRecord)
  | exhausted
deriving DecidableEq, Repr

/-- The states of the CalibrationController (R23). Armed never rests (R205, decision D24). -/
inductive CalState where
  | idle
  | armed
  | testing
  | accepted
  | exhausted
deriving DecidableEq, Repr

/-- Memory: the listed cells, addresses strictly rising, every other address reads as 0 (R261). The unit
is the spec's Cell, the smallest thing an address names (R41; notes/assumptions/1.md). -/
abbrev Memory := List (Nat × Cell)

/-- The canonical form of memory: addresses strictly rising and inside 0..32767 (R16), and no listed cell
holds 0, which is what an unlisted address reads as. -/
abbrev Memory.wf (m : Memory) : Prop :=
  m.Pairwise (fun p q => p.1 < q.1) ∧ ∀ p ∈ m, p.1 < 32768 ∧ p.2 ≠ 0#16

/-- A Checkpoint (R22): the five captured substates and the length of `output` at capture. -/
structure Checkpoint where
  mem : Memory
  x : Vector Word 8
  stack : List Word
  pc : Pc
  inbuf : List Word
  outlen : Nat
deriving DecidableEq, Repr

/-- An answer on the LINE port (R178): a whole line, or none. An empty line counts as none (decision D17). -/
inductive LineAnswer where
  | line (cs : List Word)
  | noLine
deriving DecidableEq, Repr

/-- The whole state: the spec's twelve pieces (10_state.md section 1; the fault record is inside `status`)
and the two inputs of the step that the fixed interface makes state hold (R91, R101): the constant
configuration `cfg` and the answers `lines` that the line source has given and no request has used. -/
structure State where
  /-- the general registers (R10) -/
  x : Vector Word 8
  /-- the program counter (R13) -/
  pc : Pc
  /-- the memory (R16) -/
  mem : Memory
  /-- the stack, top last (R17) -/
  stack : List Word
  /-- the InputBuffer, head first (R18) -/
  inbuf : List Word
  /-- the Output log, newest last (R19) -/
  output : List Word
  /-- the run status and, inside it, the fault record (R20, R21) -/
  status : Status
  /-- the checkpoint storage (R22) -/
  cp : Option Checkpoint
  /-- the controller's state (R23) -/
  calState : CalState
  /-- the CandidateValue (R23) -/
  candidate : Word
  /-- the index into `output` from which oracle strings are looked for (R23) -/
  scanBase : Nat
  /-- CFG port, constant during a session (R25) -/
  cfg : Config
  /-- LINE port: answers given and not yet used, oldest first (R101, R178) -/
  lines : List LineAnswer
deriving DecidableEq, Repr

/-- The state right after reset (R260, R261) with the empty image, the configuration of the plain engine
and no answer on the LINE port (notes/assumptions/6.md, 7.md and 11.md). -/
def State.reset : State where
  x := Vector.replicate 8 0#15
  pc := 0
  mem := []
  stack := []
  inbuf := []
  output := []
  status := .running
  cp := none
  calState := .idle
  candidate := Config.plainEngine.candFirst
  scanBase := 0
  cfg := Config.plainEngine
  lines := []

/-- How a step ends with no next state. Neither is one of the spec's faults (R230), which are next states
with `status` = Faulted. -/
inductive Fault where
  /-- Raised by `step` when `status` is Halted, Faulted or Exhausted: "no step is taken" (R91, R20). Safe:
  the model stops exactly where the machine has stopped. -/
  | notRunning
  /-- Raised by the meaning of `in` when `inbuf` is empty and the line source has given no answer yet: "the
  engine has no step" (R101; V14 of 93_implementation_defined.md calls it stuck). Safe: the machine waits,
  and goes on when the host appends an answer to `lines`. -/
  | awaitingLine
deriving DecidableEq, Repr

/-- Why an instruction has no meaning. No meaning of this model answers with a refusal. -/
inductive Refusal where
  /-- Raised by an arm of `exec` whose instruction has no meaning yet, by its mnemonic. Safe. No arm of this
  model raises it. -/
  | notModelled (mnemonic : String)
deriving DecidableEq, Repr

/-- What an instruction or a step answers. -/
abbrev Result := Host.Outcome State Fault Refusal

end Sys2Proof.Machine
end

