-- ==== Sys2Proof/Machine/Ops.lean ====
section
/-! DEFINITION. The named operations over memory, registers, pc, stack and status, and the one shared
operation that takes a fault (spec/60_exceptions.md R236). There is no return from a fault (R242): the
opcode table has no such instruction and nothing but reset leaves Faulted. -/

namespace Sys2Proof.Machine

/-- The cell at an address: what is listed there, else 0 (R16, R261). -/
def Memory.read : Memory → Nat → Cell
  | [], _ => 0#16
  | (b, w) :: m, a => if b = a then w else Memory.read m a

/-- A cell in front of a memory whose addresses all lie above it; 0 is what an unlisted address reads as,
so it is not listed. -/
def Memory.cons (a : Nat) (v : Cell) (m : Memory) : Memory := if v = 0#16 then m else (a, v) :: m

/-- The memory after one cell is written, in canonical form (R43, R47). -/
def Memory.write : Memory → Nat → Cell → Memory
  | [], a, v => Memory.cons a v []
  | (b, w) :: m, a, v =>
    if a < b then Memory.cons a v ((b, w) :: m)
    else if a = b then Memory.cons a v m
    else (b, w) :: Memory.write m a v

/-- Cells stored from address `a` on; cells above address 32767 do not exist and are left out (R16). -/
def Memory.writeAll (m : Memory) (a : Nat) : List Cell → Memory
  | [] => m
  | w :: ws => if a ≤ 32767 then (m.write a w).writeAll (a + 1) ws else m

/-- The image loaded verbatim from address `a` on, zeros not listed (R261). -/
def Memory.ofImage (a : Nat) : List Cell → Memory
  | [] => []
  | w :: ws => Memory.cons a w (Memory.ofImage (a + 1) ws)

/-- The cells from address `a` on, at most `n`, ending at address 32767 (R92, R93). -/
def Memory.window (m : Memory) (a : Nat) : Nat → List Cell
  | 0 => []
  | n + 1 => if a ≤ 32767 then m.read a :: m.window (a + 1) n else []

/-- The sequential next address addr + 1 + n, an integer, not reduced (R95, R14). -/
def State.next (s : State) (n : Nat) : Nat := s.pc.toNat + 1 + n

/-- `pc <- next` for an instruction with n operands (R95). -/
def State.advance (s : State) (n : Nat) : State := { s with pc := BitVec.ofNat 16 (s.next n) }

/-- `pc <- t` for a resolved Word t (R14, R135). -/
def State.jump (s : State) (t : Word) : State := { s with pc := t.setWidth 16 }

/-- `x[r] <- v` (R10, R11). -/
def State.writeReg (s : State) (r : RegIdx) (v : Word) : State := { s with x := s.x.set r v }

/-- The cell at an address becomes v (R47). -/
def State.storeCell (s : State) (a : Nat) (v : Cell) : State := { s with mem := s.mem.write a v }

/-- `Push(v)`: `stack <- stack ++ [v]` (R17). -/
def State.push (s : State) (v : Word) : State := { s with stack := s.stack ++ [v] }

/-- The stack without its last element (R17). -/
def State.dropTop (s : State) : State := { s with stack := s.stack.dropLast }

/-- `status <- Halted` (R170). -/
def State.halted (s : State) : State := { s with status := .halted }

/-- Taking a fault (R236): `status <- Faulted(cause, addr, opcode)` with addr the value of `pc`, and
nothing else. -/
def State.faulted (s : State) (c : Cause) (op : Option Cell) : State :=
  { s with status := .faulted ⟨c, s.pc, op⟩ }

/-- `raise <Fault>`: the instruction ends in the state that taking the fault leaves (R236). -/
def raise (c : Cause) (op : Option Cell) (s : State) : Result := .next (s.faulted c op)

/-- The numeric code of a cause (R230, decision D12). -/
def Cause.code : Cause → Nat
  | .illegalOpcode => 1
  | .invalidOperand => 2
  | .addressOutOfRange => 3
  | .stackUnderflow => 4
  | .inputExhausted => 5
  | .divideByZero => 6
  | .nonWordValue => 7

/-- The fault record, none unless `status` is Faulted (R21). -/
def State.faultRecord (s : State) : Option FaultRecord :=
  match s.status with
  | .running => none
  | .halted => none
  | .faulted rec => some rec
  | .exhausted => none

/-- What the host reads on the STAT port (R25). -/
def State.statPort (s : State) : Status × Option FaultRecord × CalState × Word :=
  (s.status, s.faultRecord, s.calState, s.candidate)

/-- `MemRead(a, 1)` inside the instruction with opcode `op` (R44). -/
def withCell (op : Cell) (a : Nat) (s : State) (k : Cell → Result) : Result :=
  if a ≤ 32767 then k (s.mem.read a) else raise .addressOutOfRange (some op) s

/-- `MemWrite(a, 1, v)` inside the instruction with opcode `op` (R44). -/
def withStore (op : Cell) (a : Nat) (v : Cell) (s : State) (k : State → Result) : Result :=
  if a ≤ 32767 then k (s.storeCell a v) else raise .addressOutOfRange (some op) s

/-- `Pop()` inside the instruction with opcode `op`: the last element and the state without it, or
StackUnderflow (R17, R234). -/
def withPop (op : Cell) (s : State) (k : Word → State → Result) : Result :=
  match s.stack.getLast? with
  | some v => k v s.dropTop
  | none => raise .stackUnderflow (some op) s

end Sys2Proof.Machine
end

