-- ==== Sys2Proof/Machine/Checkpoint.lean ====
section
/-! DEFINITION. The CheckpointManager (spec/47_checkpoint_calibration.md R190 to R197). -/

namespace Sys2Proof.Machine

/-- The snapshot of the live state (R22, R190). -/
def State.snapshot (s : State) : Checkpoint where
  mem := s.mem
  x := s.x
  stack := s.stack
  pc := s.pc
  inbuf := s.inbuf
  outlen := s.output.length

/-- `capture()` (R190); a second capture changes nothing (R191, decision D22). -/
def State.capture (s : State) : State :=
  match s.cp with
  | none => { s with cp := some s.snapshot }
  | some _ => s

/-- The five captured substates replaced whole by the checkpoint's (R192); nothing else (R194). -/
def State.restoreFrom (s : State) (c : Checkpoint) : State :=
  { s with mem := c.mem, x := c.x, stack := c.stack, pc := c.pc, inbuf := c.inbuf }

/-- `restore()` (R192); with no checkpoint it changes nothing (R197, decision D22). -/
def State.restore (s : State) : State :=
  match s.cp with
  | none => s
  | some c => s.restoreFrom c

end Sys2Proof.Machine
end

