-- ==== Sys2Proof/Machine/Controller.lean ====
section
/-! DEFINITION. The CalibrationController (spec/47_checkpoint_calibration.md R200 to R212) and the boundary
action of a step (spec/40_execution_cycle.md R97). -/

namespace Sys2Proof.Machine

/-- `ends_with(P, base)` (R210): `output` has at least len(P) elements from `base` on, and its last len(P)
elements are P. -/
def endsWith (p : List Word) (base : Nat) (output : List Word) : Bool :=
  decide (base + p.length ≤ output.length) && output.drop (output.length - p.length) == p

/-- The arming action (R205): capture, then `scan_base`, then the candidate write; Armed is passed through
(decision D24). -/
def State.arm (s : State) : State :=
  { s.capture with
    scanBase := s.output.length
    x := s.x.set s.cfg.calReg s.candidate
    calState := .testing }

/-- Acceptance (R206). -/
def State.accept (s : State) : State := { s with calState := .accepted }

/-- The last candidate was rejected (R209, decision D21). -/
def State.exhaust (s : State) : State := { s with calState := .exhausted, status := .exhausted }

/-- Rejection and retry (R207): restore, then `scan_base`, then the next candidate and its write. -/
def State.retry (s : State) : State :=
  { s.restore with
    scanBase := s.output.length
    candidate := s.candidate + 1#15
    x := s.restore.x.set s.cfg.calReg (s.candidate + 1#15) }

/-- `controller_boundary()` (R203). -/
def controllerBoundary (s : State) : State :=
  match s.calState with
  | .idle =>
    if endsWith s.cfg.armStr 0 s.output && s.x[s.cfg.calReg] == 0#15 then s.arm else s
  | .testing =>
    if endsWith s.cfg.accStr s.scanBase s.output then s.accept
    else if endsWith s.cfg.rejStr s.scanBase s.output then
      if s.candidate = s.cfg.candLast then s.exhaust else s.retry
    else s
  | .accepted => s
  | .exhausted => s
  | .armed => s

/-- The boundary action (R97): after a completed `out` (opcode 19), and only with CAL_ENABLE true. An
instruction completed, without fault or halt, when `status` is still Running. -/
def boundaryAction (i : Instr) (t : State) : State :=
  if i.opcode = 19#16 ∧ t.status = .running ∧ t.cfg.calEnable = true then controllerBoundary t else t

/-- The boundary action after what `exec` answered (R91, R97). -/
def afterExec (i : Instr) : Result → Result
  | .next t => .next (boundaryAction i t)
  | .fault f => .fault f
  | .refused r => .refused r

end Sys2Proof.Machine
end

