-- ==== Sys2Proof/Machine/Alu.lean ====
section
/-! DEFINITION. The results of the arithmetic and logic family (spec/44_arithmetic_logic.md). The operation is
done on the integers without loss and the exact result is reduced to its low 15 bits (R146). -/

namespace Sys2Proof.Machine

/-- R140 -/
def addWord (b c : Word) : Word := BitVec.ofNat 15 ((b.toNat + c.toNat) % 32768)

/-- R141: the product is exact before the reduction. -/
def multWord (b c : Word) : Word := BitVec.ofNat 15 ((b.toNat * c.toNat) % 32768)

/-- R142, for a divisor that is not 0: the remainder of the unsigned division. -/
def modWord (b c : Word) : Word := BitVec.ofNat 15 ((b.toNat % c.toNat) % 32768)

/-- R143 -/
def andWord (b c : Word) : Word := b &&& c

/-- R144 -/
def orWord (b c : Word) : Word := b ||| c

/-- R145: the 15-bit one's complement, 32767 - b. -/
def notWord (b : Word) : Word := BitVec.ofNat 15 (32767 - b.toNat)

end Sys2Proof.Machine
end

