-- ==== Sys2Proof/Machine/Operands.lean ====
section
/-! DEFINITION. Operand validation and resolution (spec/40_execution_cycle.md R94, spec/30_encoding.md R66
and R67), and the two shapes of instruction that write one register from resolved values. -/

namespace Sys2Proof.Machine

/-- `resolve`: the value of an operand of mode L, none where it raises InvalidOperand (R66). -/
def resolve (o : Src) (s : State) : Option Word :=
  match o with
  | .lit v => some v
  | .reg r => some s.x[r]
  | .invalid _ => none

/-- `dest`: the register an operand of mode R names, none where it raises InvalidOperand (R67). -/
def dest (o : Dst) : Option RegIdx :=
  match o with
  | .reg r => some r
  | .invalid _ => none

/-- An operand of mode L of the instruction with opcode `op` (R94). -/
def withValue (op : Cell) (o : Src) (s : State) (k : Word → Result) : Result :=
  match resolve o s with
  | some v => k v
  | none => raise .invalidOperand (some op) s

/-- An operand of mode R of the instruction with opcode `op` (R94). -/
def withDest (op : Cell) (o : Dst) (s : State) (k : RegIdx → Result) : Result :=
  match dest o with
  | some r => k r
  | none => raise .invalidOperand (some op) s

/-- Format F2 with modes R, L: `x[a] <- f b; pc <- next` (R94 to R96). -/
def unary (op : Cell) (f : Word → Word) (a : Dst) (b : Src) (s : State) : Result :=
  withDest op a s fun r => withValue op b s fun vb =>
    .next ((s.writeReg r (f vb)).advance 2)

/-- Format F3 with modes R, L, L: `x[a] <- f b c; pc <- next` (R94 to R96). -/
def binary (op : Cell) (f : Word → Word → Word) (a : Dst) (b c : Src) (s : State) : Result :=
  withDest op a s fun r => withValue op b s fun vb => withValue op c s fun vc =>
    .next ((s.writeReg r (f vb vc)).advance 3)

end Sys2Proof.Machine
end

