-- ==== Sys2Proof/Machine/Arith.lean ====
section
/-! DEFINITION. Arithmetic and logic: add, mult, mod, and, or, not (spec/44_arithmetic_logic.md). -/

namespace Sys2Proof.Machine

/-- R140: `x[a] <- (b + c) mod 32768`. -/
def execAdd (a : Dst) (b c : Src) (s : State) : Result := binary 9#16 addWord a b c s

/-- R141: `x[a] <- (b * c) mod 32768`. -/
def execMult (a : Dst) (b c : Src) (s : State) : Result := binary 10#16 multWord a b c s

/-- R142: `x[a] <- b mod c`; DivideByZero when c is 0 (decision D6). -/
def execMod (a : Dst) (b c : Src) (s : State) : Result :=
  withDest 11#16 a s fun r => withValue 11#16 b s fun vb => withValue 11#16 c s fun vc =>
    if vc = 0#15 then raise .divideByZero (some 11#16) s
    else .next ((s.writeReg r (modWord vb vc)).advance 3)

/-- R143: `x[a] <- b AND c`. -/
def execAnd (a : Dst) (b c : Src) (s : State) : Result := binary 12#16 andWord a b c s

/-- R144: `x[a] <- b OR c`. -/
def execOr (a : Dst) (b c : Src) (s : State) : Result := binary 13#16 orWord a b c s

/-- R145: `x[a] <- 32767 - b`; the result is not resolved a second time. -/
def execNot (a : Dst) (b : Src) (s : State) : Result := unary 14#16 notWord a b s

end Sys2Proof.Machine
end

