-- ==== Sys2Proof/Machine/Flags.lean ====
section
/-! DEFINITION. The machine has no flags, condition codes or predicate registers (spec/10_state.md R15). What
stands in their place: the values 0 and 1 that `eq` and `gt` write to a general register, and the test
that `jt` and `jf` make of a resolved value. -/

namespace Sys2Proof.Machine

/-- The Word 1 for true, 0 for false (R120, R121). -/
def truthWord (p : Bool) : Word := if p then 1#15 else 0#15

/-- The result of `eq` (R120): the comparison is of the resolved values. -/
def eqWord (b c : Word) : Word := truthWord (b == c)

/-- The result of `gt` (R121): unsigned, strictly greater. -/
def gtWord (b c : Word) : Word := truthWord (decide (b.toNat > c.toNat))

/-- The condition of `jt` (R131): any value but 0; `jf` jumps when it is false (R132). -/
def nonzero (a : Word) : Bool := a != 0#15

end Sys2Proof.Machine
end

