-- ==== Sys2Proof/Machine/Compare.lean ====
section
/-! DEFINITION. Comparison: eq, gt (spec/42_compare.md). -/

namespace Sys2Proof.Machine

/-- R120: `x[a] <- 1` if b = c, else 0. -/
def execEq (a : Dst) (b c : Src) (s : State) : Result := binary 4#16 eqWord a b c s

/-- R121: `x[a] <- 1` if b > c, else 0. -/
def execGt (a : Dst) (b c : Src) (s : State) : Result := binary 5#16 gtWord a b c s

end Sys2Proof.Machine
end

