-- ==== Sys2Proof/Machine/Control.lean ====
section
/-! DEFINITION. Control transfer: jmp, jt, jf, call, ret (spec/43_control_transfer.md). -/

namespace Sys2Proof.Machine

/-- R130: `pc <- a`. -/
def execJmp (a : Src) (s : State) : Result := withValue 6#16 a s fun t => .next (s.jump t)

/-- R131: if a is not 0, `pc <- b`; b is decoded either way (R94, decision D10). -/
def execJt (a b : Src) (s : State) : Result :=
  withValue 7#16 a s fun v => withValue 7#16 b s fun t =>
    .next (if nonzero v then s.jump t else s.advance 2)

/-- R132: if a is 0, `pc <- b`; b is decoded either way (R94, decision D10). -/
def execJf (a b : Src) (s : State) : Result :=
  withValue 8#16 a s fun v => withValue 8#16 b s fun t =>
    .next (if nonzero v then s.advance 2 else s.jump t)

/-- R133: push the return address, `pc <- a`; AddressOutOfRange where the return address is no Word
(decision D9). -/
def execCall (a : Src) (s : State) : Result :=
  withValue 17#16 a s fun t =>
    if s.next 1 > 32767 then raise .addressOutOfRange (some 17#16) s
    else .next ((s.push (BitVec.ofNat 15 (s.next 1))).jump t)

/-- R134: `pc <- Pop()`. -/
def execRet (s : State) : Result := withPop 18#16 s fun t u => .next (u.jump t)

end Sys2Proof.Machine
end

