-- ==== Sys2Proof/Machine/DataMove.lean ====
section
/-! DEFINITION. Data movement: set, push, pop (spec/41_set_push_pop.md). -/

namespace Sys2Proof.Machine

/-- R110: `x[a] <- b`. -/
def execSet (a : Dst) (b : Src) (s : State) : Result := unary 1#16 (fun v => v) a b s

/-- R111: `Push(a)`. -/
def execPush (a : Src) (s : State) : Result :=
  withValue 2#16 a s fun v => .next ((s.push v).advance 1)

/-- R112: `x[a] <- Pop()`; the destination is decoded before the stack is looked at. -/
def execPop (a : Dst) (s : State) : Result :=
  withDest 3#16 a s fun r => withPop 3#16 s fun v t => .next ((t.writeReg r v).advance 1)

end Sys2Proof.Machine
end

