-- ==== Sys2Proof/Machine/MemAccess.lean ====
section
/-! DEFINITION. Memory access: rmem, wmem (spec/45_memory_access.md). The address is the resolved value of one
operand, absolute (R43). -/

namespace Sys2Proof.Machine

/-- R160: `x[a] <- mem[b]`; NonWordValue when the cell holds more than 32767 (decision D8). -/
def execRmem (a : Dst) (b : Src) (s : State) : Result :=
  withDest 15#16 a s fun r => withValue 15#16 b s fun vb => withCell 15#16 vb.toNat s fun w =>
    if w.toNat > 32767 then raise .nonWordValue (some 15#16) s
    else .next ((s.writeReg r (w.setWidth 15)).advance 2)

/-- R161: `mem[a] <- b`, the Word stored with bit 15 = 0. -/
def execWmem (a b : Src) (s : State) : Result :=
  withValue 16#16 a s fun va => withValue 16#16 b s fun vb =>
    withStore 16#16 va.toNat (vb.setWidth 16) s fun t => .next (t.advance 2)

end Sys2Proof.Machine
end

