-- ==== Sys2Proof/Machine/Io.lean ====
section
/-! DEFINITION. The IOChannel (spec/46_io_and_system.md R172 to R178). -/

namespace Sys2Proof.Machine

/-- `write_char(c)`: `output <- output ++ [c]` (R173). The event on the OUT port is this append: the codes
presented there, in order, are `output`. -/
def State.writeChar (s : State) (c : Word) : State := { s with output := s.output ++ [c] }

/-- What `read_char()` answers (R177). -/
inductive ReadChar where
  /-- a character, and the state with it taken out of `inbuf` -/
  | char (c : Word) (s : State)
  /-- the line source answered NoLine: InputExhausted -/
  | exhausted
  /-- the line source has not answered yet (R101) -/
  | waiting

/-- `read_char()` (R177): the head of `inbuf`; an empty `inbuf` is refilled first with one whole line from
the line source. An answer with an empty list is NoLine (R178). The line source is asked only when
`inbuf` is empty. -/
def readChar (s : State) : ReadChar :=
  match s.inbuf with
  | c :: rest => .char c { s with inbuf := rest }
  | [] =>
    match s.lines with
    | [] => .waiting
    | .noLine :: _ => .exhausted
    | .line [] :: _ => .exhausted
    | .line (c :: rest) :: more => .char c { s with inbuf := rest, lines := more }

/-- The host's input on the LINE port: the line source's next answer (R101, R178). It is no step. -/
def State.answerLine (s : State) (ans : LineAnswer) : State := { s with lines := s.lines ++ [ans] }

end Sys2Proof.Machine
end

