-- ==== Sys2Proof/Machine/System.lean ====
section
/-! DEFINITION. System and I/O: halt, noop, out, in (spec/46_io_and_system.md). The controller's boundary action
after `out` is the step's (Machine/Controller.lean, R97). -/

namespace Sys2Proof.Machine

/-- R170: `pc <- next; status <- Halted`. -/
def execHalt (s : State) : Result := .next (s.halted.advance 0)

/-- R171: `pc <- next`. -/
def execNoop (s : State) : Result := .next (s.advance 0)

/-- R174: `write_char(a)`. -/
def execOut (a : Src) (s : State) : Result :=
  withValue 19#16 a s fun c => .next ((s.writeChar c).advance 1)

/-- R176: `x[a] <- read_char()`; the destination is decoded before the line source is asked. With no answer
from the line source the instruction waits (R101). -/
def execIn (a : Dst) (s : State) : Result :=
  withDest 20#16 a s fun r =>
    match readChar s with
    | .char c t => .next ((t.writeReg r c).advance 1)
    | .exhausted => raise .inputExhausted (some 20#16) s
    | .waiting => .fault .awaitingLine

end Sys2Proof.Machine
end

