-- ==== Sys2Proof/Machine/Fetch.lean ====
section
/-! DEFINITION. Opcode fetch and operand fetch (spec/40_execution_cycle.md R92, R93), the faults they raise, and
storing an instruction where the next fetch reads. -/

namespace Sys2Proof.Machine

/-- The instruction at `pc`: the decoder on the cells from `pc` up to the end of memory. Four cells are the
longest instruction (R60). -/
def fetch (s : State) : Except DecodeError Instr :=
  match decode (s.mem.window s.pc.toNat 4) with
  | .ok (i, _) => .ok i
  | .error e => .error e

/-- The fault of a failed fetch (R92, R93; R233 a and b, R231). -/
def raiseFetch (e : DecodeError) (s : State) : Result :=
  match e with
  | .noOpcodeCell => raise .addressOutOfRange none s
  | .illegalOpcode op => raise .illegalOpcode (some op) s
  | .missingOperandCell op => raise .addressOutOfRange (some op) s

/-- An instruction's bits stored where the next fetch reads: its four cells from `pc` on. -/
def storeAtPc (s : State) (nbits w : Nat) : State :=
  { s with mem := s.mem.writeAll s.pc.toNat (tableCells nbits w) }

end Sys2Proof.Machine
end

