-- ==== Sys2Proof/Machine/Step.lean ====
section
/-! DEFINITION. One step (spec/40_execution_cycle.md R90, R91) and the host's aid for the next fetch. -/

namespace Sys2Proof.Machine

/-- One step, taken only when `status` is Running (R91): fetch, decode, execute, boundary action. -/
def step (s : State) : Host.Outcome State Fault Refusal :=
  match s.status with
  | .running =>
    match fetch s with
    | .ok i => afterExec i (exec i s)
    | .error e => raiseFetch e s
  | .halted => .fault .notRunning
  | .faulted _ => .fault .notRunning
  | .exhausted => .fault .notRunning

/-- The same instruction stored where step fetches its next instruction; memory alone changes. At a pc
above 32764 the cells beyond address 32767 do not exist and are left out. -/
def State.withFetchWord (s : State) (nbits w : Nat) : State := storeAtPc s nbits w

end Sys2Proof.Machine
end

