-- ==== Sys2Proof/Machine/Boot.lean ====
section
/-! DEFINITION. The start of a session (spec/70_reset_and_hazards.md R260 to R264) and the image format
(spec/20_memory.md R52). Reset is an action of the host and no step (R263). -/

namespace Sys2Proof.Machine

/-- Every state element at its reset value, for a configuration, an image and the answers of a line source
(R260, R261). -/
def State.boot (cfg : Config) (image : List Cell) (lines : List LineAnswer) : State :=
  { State.reset with
    mem := Memory.ofImage 0 image
    candidate := cfg.candFirst
    cfg := cfg
    lines := lines }

/-- A session's first state; an ill-formed configuration (decision D23) or an image of more than 32768
cells (R261) is refused and the block is not started. -/
def launch (cfg : Config) (image : List Cell) (lines : List LineAnswer) : Option State :=
  if cfg.valid = true ∧ image.length ≤ 32768 then some (State.boot cfg image lines) else none

/-- The cells of an image file, low byte first (R52); a file of odd length is refused (decision D28). -/
def imageOfBytes : List (BitVec 8) → Option (List Cell)
  | [] => some []
  | [_] => none
  | lo :: hi :: rest =>
    match imageOfBytes rest with
    | some ws => some ((hi ++ lo) :: ws)
    | none => none

/-- A session started from an image file (R52). -/
def launchFile (cfg : Config) (bytes : List (BitVec 8)) (lines : List LineAnswer) : Option State :=
  match imageOfBytes bytes with
  | some image => launch cfg image lines
  | none => none

end Sys2Proof.Machine
end

