-- ==== Sys2Proof/Safety.lean ====
section
/-! DEFINITION. The terms in which statements speak about the machine: what an operand denotes, what it means
that a string has just been completed, how an instruction ends, and the invariant of the machine. -/

namespace Sys2Proof.Machine

/-- The operand of mode L is legal and its value in state `s` is `v` (R66). -/
def Denotes (o : Src) (s : State) (v : Word) : Prop :=
  match o with
  | .lit w => v = w
  | .reg r => v = s.x[r]
  | .invalid _ => False

/-- `ends_with(P, base)` of R210 in words: `output` is some prefix, of at least `base` elements, followed
by P. -/
def CompletedAt (p : List Word) (base : Nat) (output : List Word) : Prop :=
  ∃ before, output = before ++ p ∧ base ≤ before.length

/-- The instruction raises the fault `k` at `s`: the state after it is `s` with `status` Faulted, the record
holding the cause, the address of the instruction and its opcode, and nothing else changed (R236; that `pc`
stays is the spec's decision D13). -/
def FaultsWith (i : Instr) (s : State) (k : Cause) : Prop :=
  exec i s = .next { s with status := .faulted ⟨k, s.pc, some i.opcode⟩ }

/-- The five substates that a checkpoint captures agree (R192, R195). -/
def SameCaptured (s t : State) : Prop :=
  t.mem = s.mem ∧ t.x = s.x ∧ t.stack = s.stack ∧ t.pc = s.pc ∧ t.inbuf = s.inbuf

/-- The cell the next opcode fetch reads (R92). -/
def opcodeCell (s : State) : Cell := s.mem.read s.pc.toNat

/-- A checkpoint is a snapshot of a legal state (R22), taken where the designated register held 0 (R205),
and the scan base has not moved below the marker (R207). -/
structure CheckpointOk (s : State) (c : Checkpoint) : Prop where
  mem_wf : c.mem.wf
  pc_range : c.pc.toNat ≤ 32768
  outlen_le : c.outlen ≤ s.scanBase
  designated_zero : c.x[s.cfg.calReg] = 0#15

/-- The invariant of the machine: what every state of a session satisfies, from `launch` on. -/
structure Inv (s : State) : Prop where
  /-- the configuration meets its constraints (00_scope.md section 5) -/
  cfg_valid : s.cfg.valid = true
  /-- memory is in canonical form and inside 0..32767 (R16) -/
  mem_wf : s.mem.wf
  /-- `pc` is in 0..32768 (R13) -/
  pc_range : s.pc.toNat ≤ 32768
  /-- Armed is not a resting state (R205) -/
  not_armed : s.calState ≠ .armed
  /-- with CAL_ENABLE false the controller stays Idle (R201) -/
  disabled_idle : s.cfg.calEnable = false → s.calState = .idle
  /-- there is a checkpoint exactly outside Idle (R205) -/
  cp_iff : s.cp = none ↔ s.calState = .idle
  /-- a checkpoint is legal -/
  cp_ok : ∀ c, s.cp = some c → CheckpointOk s c
  /-- `scan_base` is an index into `output` (R23) -/
  scan_le : s.scanBase ≤ s.output.length
  /-- `candidate` is in CAND_FIRST..CAND_LAST (R23, R209) -/
  cand_first_le : s.cfg.candFirst.toNat ≤ s.candidate.toNat
  cand_le_last : s.candidate.toNat ≤ s.cfg.candLast.toNat
  /-- in Idle `candidate` is CAND_FIRST (R205) -/
  idle_first : s.calState = .idle → s.candidate = s.cfg.candFirst
  /-- the run ends as Exhausted exactly when the controller is Exhausted (R209) -/
  exhausted_iff : s.status = .exhausted ↔ s.calState = .exhausted
  /-- the fault record names the address of the faulting instruction, which `pc` keeps (R21, R236) -/
  fault_addr : ∀ rec, s.status = .faulted rec → rec.addr = s.pc

end Sys2Proof.Machine
end

