-- ==== Sys2Proof/Certificates/Slice0/Obligations.lean ====
section
/-! DEFINITION. The statements for the provers. A statement cites in OBLIGATIONS.json the rule or section of
spec/ it comes from; where it rests on one of the spec's own decisions (92_eei_decisions.md) or on a choice
of this model, its docstring says so. For every statement that ends in a fault: that pc stays at the
instruction is decision D13 of R236 (log entry 16), and that an answer found on the LINE port stays in `lines`
is this model's choice (log entry 8). -/

open Sys2Proof Sys2Proof.Machine

/-- For every well-formed instruction of all 22, with every operand at every value its cell admits (literal,
register, or a cell that is invalid for its mode), and for any cells after it, decode (encode i ++ rest) is i
with exactly those cells left. -/
def Obligations.DecodeInvertsEncode : Prop :=
  ∀ (i : Instr) (rest : List Cell), i.wf = true → decode (encode i ++ rest) = .ok (i, rest)

/-- If the decoder accepts some cells, the instruction it gives is well-formed and its encoding followed by the
cells left over is exactly the cells given: no bit of an encoding is dropped and no two encodings mean the
same instruction. -/
def Obligations.EncodeInvertsDecode : Prop :=
  ∀ (cells : List Cell) (i : Instr) (rest : List Cell),
    decode cells = .ok (i, rest) → i.wf = true ∧ encode i ++ rest = cells

/-- Each of the 22 instructions encodes to its opcode of the map followed by one cell per operand in the order a,
b, c, with a of mode R where the map says so; register i is the cell 32768 + i and a literal is itself; every
opcode above 21 is rejected by name. -/
def Obligations.EncodingFollowsOpcodeMap : Prop :=
  encode .halt = [0#16] ∧
  (∀ (a : Dst) (b : Src), encode (.set a b) = [1#16, cellOfDst a, cellOfSrc b]) ∧
  (∀ (a : Src), encode (.push a) = [2#16, cellOfSrc a]) ∧
  (∀ (a : Dst), encode (.pop a) = [3#16, cellOfDst a]) ∧
  (∀ (a : Dst) (b : Src) (c : Src), encode (.eq a b c) = [4#16, cellOfDst a, cellOfSrc b, cellOfSrc c]) ∧
  (∀ (a : Dst) (b : Src) (c : Src), encode (.gt a b c) = [5#16, cellOfDst a, cellOfSrc b, cellOfSrc c]) ∧
  (∀ (a : Src), encode (.jmp a) = [6#16, cellOfSrc a]) ∧
  (∀ (a : Src) (b : Src), encode (.jt a b) = [7#16, cellOfSrc a, cellOfSrc b]) ∧
  (∀ (a : Src) (b : Src), encode (.jf a b) = [8#16, cellOfSrc a, cellOfSrc b]) ∧
  (∀ (a : Dst) (b : Src) (c : Src), encode (.add a b c) = [9#16, cellOfDst a, cellOfSrc b, cellOfSrc c]) ∧
  (∀ (a : Dst) (b : Src) (c : Src), encode (.mult a b c) = [10#16, cellOfDst a, cellOfSrc b, cellOfSrc c]) ∧
  (∀ (a : Dst) (b : Src) (c : Src), encode (.mod a b c) = [11#16, cellOfDst a, cellOfSrc b, cellOfSrc c]) ∧
  (∀ (a : Dst) (b : Src) (c : Src), encode (.and a b c) = [12#16, cellOfDst a, cellOfSrc b, cellOfSrc c]) ∧
  (∀ (a : Dst) (b : Src) (c : Src), encode (.or a b c) = [13#16, cellOfDst a, cellOfSrc b, cellOfSrc c]) ∧
  (∀ (a : Dst) (b : Src), encode (.not a b) = [14#16, cellOfDst a, cellOfSrc b]) ∧
  (∀ (a : Dst) (b : Src), encode (.rmem a b) = [15#16, cellOfDst a, cellOfSrc b]) ∧
  (∀ (a : Src) (b : Src), encode (.wmem a b) = [16#16, cellOfSrc a, cellOfSrc b]) ∧
  (∀ (a : Src), encode (.call a) = [17#16, cellOfSrc a]) ∧
  encode .ret = [18#16] ∧
  (∀ (a : Src), encode (.out a) = [19#16, cellOfSrc a]) ∧
  (∀ (a : Dst), encode (.inp a) = [20#16, cellOfDst a]) ∧
  encode .noop = [21#16] ∧
  (∀ r : RegIdx, (cellOfDst (.reg r)).toNat = 32768 + r.val ∧ (cellOfSrc (.reg r)).toNat = 32768 + r.val) ∧
  (∀ v : Word, (cellOfSrc (.lit v)).toNat = v.toNat) ∧
  (∀ (op : Cell) (rest : List Cell), 21 < op.toNat → decode (op :: rest) = .error (.illegalOpcode op))

/-- For an opcode of the map with n operands, m of them of mode R: with at least n cells after it the decoder
takes exactly n of them, whatever they hold, and gives an instruction with that opcode, n operands and m
destinations; with fewer it rejects by name. -/
def Obligations.OpcodeAloneFixesLength : Prop :=
  ∀ (op : Cell) (rest : List Cell) (n m : Nat),
    ([0, 2, 1, 1, 3, 3, 1, 2, 2, 3, 3, 3, 3, 3, 2, 2, 2, 1, 0, 1, 1, 0] : List Nat)[op.toNat]? = some n →
    ([0, 1, 0, 1, 1, 1, 0, 0, 0, 1, 1, 1, 1, 1, 1, 1, 0, 0, 0, 0, 1, 0] : List Nat)[op.toNat]? = some m →
    (n ≤ rest.length → ∃ i, decode (op :: rest) = .ok (i, rest.drop n) ∧ i.opcode = op ∧
      i.operandCount = n ∧ i.dsts.length = m ∧ (encode i).length = 1 + n) ∧
    (rest.length < n → decode (op :: rest) = .error (.missingOperandCell op))

/-- Eleven instructions written out cell by cell in the spec (one of each family at least) decode to the
instruction the spec names. -/
def Obligations.SpecWordsDecodeAsWritten : Prop :=
  decode [9, 32768, 4, 5] = .ok (.add (.reg 0) (.lit 4) (.lit 5), []) ∧
  decode [6, 4] = .ok (.jmp (.lit 4), []) ∧
  decode [17, 4] = .ok (.call (.lit 4), []) ∧
  decode [19, 65] = .ok (.out (.lit 65), []) ∧
  decode [1, 32769, 32768] = .ok (.set (.reg 1) (.reg 0), []) ∧
  decode [16, 32770, 32767] = .ok (.wmem (.reg 2) (.lit 32767), []) ∧
  decode [20, 32775] = .ok (.inp (.reg 7), []) ∧
  decode [18] = .ok (.ret, []) ∧
  decode [4, 32768, 32769, 4] = .ok (.eq (.reg 0) (.reg 1) (.lit 4), []) ∧
  decode [2, 32768] = .ok (.push (.reg 0), []) ∧
  decode [1, 32768, 32776] = .ok (.set (.reg 0) (.invalid 32776), [])

/-- For every cell w, state and continuation: 0..32767 goes on with the Word of that value, 32768 + r goes on with
the current content of register r, and 32776..65535 raises InvalidOperand with nothing else changed. -/
def Obligations.ResolveClassifiesCells : Prop :=
  ∀ (w op : Cell) (s : State) (k : Word → Result),
    (w.toNat ≤ 32767 → ∃ v : Word, v.toNat = w.toNat ∧ withValue op (srcOfCell w) s k = k v) ∧
    (∀ r : RegIdx, w.toNat = 32768 + r.val → withValue op (srcOfCell w) s k = k s.x[r]) ∧
    (32775 < w.toNat → withValue op (srcOfCell w) s k =
      .next { s with status := .faulted ⟨.invalidOperand, s.pc, some op⟩ })

/-- For every cell w, state and continuation: 32768 + r goes on with register r, whatever register r holds, and
every other cell raises InvalidOperand. For a literal 0..32767 that is the spec's own decision D7. That pc
stays at the instruction is the spec's own decision D13 (log entry 16). -/
def Obligations.DestClassifiesCells : Prop :=
  ∀ (w op : Cell) (s : State) (k : RegIdx → Result),
    (∀ r : RegIdx, w.toNat = 32768 + r.val → withDest op (dstOfCell w) s k = k r) ∧
    (w.toNat ≤ 32767 ∨ 32775 < w.toNat → withDest op (dstOfCell w) s k =
      .next { s with status := .faulted ⟨.invalidOperand, s.pc, some op⟩ })

/-- For every instruction and state: if some operand is illegal for its mode, used or not, exec answers the state
with status Faulted(InvalidOperand, pc, opcode) and every other field unchanged; it comes before every
execute-phase fault and before the wait of `in`. Literal destinations (D7), unused jump targets (D10) and the
priority (D11) are the spec's own decisions. That pc stays at the instruction is the spec's own decision D13
(log entry 16). -/
def Obligations.IllegalOperandAlwaysFaults : Prop :=
  ∀ (i : Instr) (s : State), i.operandsLegal = false → FaultsWith i s .invalidOperand

/-- For every state, destination register and legal b, set completes: register a is the value of b, pc moves past
three words. Every other field of the state is unchanged. -/
def Obligations.SetCopiesResolvedValue : Prop :=
  ∀ (s : State) (r : RegIdx) (b : Src) (vb : Word), Denotes b s vb →
    exec (.set (.reg r) b) s =
      .next { s with x := s.x.set r vb, pc := BitVec.ofNat 16 (s.pc.toNat + 3) }

/-- The encoding of push; for every state and legal operand it completes with the value appended to the stack and
pc past two words, every other field unchanged; an operand above 32775 raises InvalidOperand. -/
def Obligations.PushAppendsResolvedValue : Prop :=
  ∀ (s : State) (a : Src),
    encode (.push a) = [2#16, cellOfSrc a] ∧
    (∀ v, Denotes a s v → exec (.push a) s =
      .next { s with stack := s.stack ++ [v], pc := BitVec.ofNat 16 (s.pc.toNat + 2) }) ∧
    (a.legal = false → FaultsWith (.push a) s .invalidOperand)

/-- With a non-empty stack pop completes: register a is the last element, the stack loses it, pc moves past two
words, every other field unchanged; with an empty stack it raises StackUnderflow. That pc stays at the
instruction is the spec's own decision D13 (log entry 16). -/
def Obligations.PopTakesTopOrUnderflows : Prop :=
  ∀ (s : State) (r : RegIdx),
    (∀ st v, s.stack = st ++ [v] → exec (.pop (.reg r)) s =
      .next { s with x := s.x.set r v, stack := st, pc := BitVec.ofNat 16 (s.pc.toNat + 2) }) ∧
    (s.stack = [] → FaultsWith (.pop (.reg r)) s .stackUnderflow)

/-- For every state, destination and legal b and c, eq and gt complete: register a is 1 if b = c (for gt: b > c
unsigned) and else 0, pc moves past four words. Every other field of the state is unchanged. -/
def Obligations.CompareWritesOneOrZero : Prop :=
  ∀ (s : State) (r : RegIdx) (b c : Src) (vb vc : Word), Denotes b s vb → Denotes c s vc →
    exec (.eq (.reg r) b c) s =
      .next { s with x := s.x.set r (if vb = vc then 1#15 else 0#15), pc := BitVec.ofNat 16 (s.pc.toNat + 4) } ∧
    exec (.gt (.reg r) b c) s =
      .next { s with x := s.x.set r (if vc.toNat < vb.toNat then 1#15 else 0#15), pc := BitVec.ofNat 16 (s.pc.toNat + 4) }

/-- The encoding of jmp; for every state and legal operand it completes with pc the target and every other field
unchanged; an operand above 32775 raises InvalidOperand. -/
def Obligations.JmpTransfersToTarget : Prop :=
  ∀ (s : State) (a : Src),
    encode (.jmp a) = [6#16, cellOfSrc a] ∧
    (∀ v, Denotes a s v → exec (.jmp a) s = .next { s with pc := v.setWidth 16 }) ∧
    (a.legal = false → FaultsWith (.jmp a) s .invalidOperand)

/-- For every state and legal a and b, jt and jf complete with only pc changed: jt goes to b when a is not 0 and
else past three words, jf the other way round. -/
def Obligations.ConditionalJumpsTestTheirOperand : Prop :=
  ∀ (s : State) (a b : Src) (va vb : Word), Denotes a s va → Denotes b s vb →
    exec (.jt a b) s =
      .next { s with pc := if va ≠ 0#15 then vb.setWidth 16 else BitVec.ofNat 16 (s.pc.toNat + 3) } ∧
    exec (.jf a b) s =
      .next { s with pc := if va = 0#15 then vb.setWidth 16 else BitVec.ofNat 16 (s.pc.toNat + 3) }

/-- For every state, destination and legal b and c, add and mult complete: register a is the exact integer sum
(product) reduced modulo 32768, pc moves past four words. Every other field of the state is unchanged. -/
def Obligations.AddAndMultReduceExactResult : Prop :=
  ∀ (s : State) (r : RegIdx) (b c : Src) (vb vc : Word), Denotes b s vb → Denotes c s vc →
    (∃ v : Word, v.toNat = (vb.toNat + vc.toNat) % 32768 ∧ exec (.add (.reg r) b c) s =
      .next { s with x := s.x.set r (v), pc := BitVec.ofNat 16 (s.pc.toNat + 4) }) ∧
    (∃ v : Word, v.toNat = (vb.toNat * vc.toNat) % 32768 ∧ exec (.mult (.reg r) b c) s =
      .next { s with x := s.x.set r (v), pc := BitVec.ofNat 16 (s.pc.toNat + 4) })

/-- For every state, destination and legal b and c: with c not 0 mod completes, register a is b mod c, pc moves
past four words, every other field unchanged; with c = 0 it raises DivideByZero, the spec's own decision D6.
That pc stays at the instruction is the spec's own decision D13 (log entry 16). -/
def Obligations.ModWritesRemainderOrFaults : Prop :=
  ∀ (s : State) (r : RegIdx) (b c : Src) (vb vc : Word), Denotes b s vb → Denotes c s vc →
    (vc ≠ 0#15 → ∃ v : Word, v.toNat = vb.toNat % vc.toNat ∧ exec (.mod (.reg r) b c) s =
      .next { s with x := s.x.set r (v), pc := BitVec.ofNat 16 (s.pc.toNat + 4) }) ∧
    (vc = 0#15 → FaultsWith (.mod (.reg r) b c) s .divideByZero)

/-- For every state, destination and legal b and c, and and or complete: bit k of register a is the conjunction
(disjunction) of bit k of b and c for k in 0..14, pc moves past four words. Every other field of the state is
unchanged. -/
def Obligations.AndOrActBitwise : Prop :=
  ∀ (s : State) (r : RegIdx) (b c : Src) (vb vc : Word), Denotes b s vb → Denotes c s vc →
    (∃ v : Word, (∀ k, k < 15 → v.getLsbD k = (vb.getLsbD k && vc.getLsbD k)) ∧
      exec (.and (.reg r) b c) s =
      .next { s with x := s.x.set r (v), pc := BitVec.ofNat 16 (s.pc.toNat + 4) }) ∧
    (∃ v : Word, (∀ k, k < 15 → v.getLsbD k = (vb.getLsbD k || vc.getLsbD k)) ∧
      exec (.or (.reg r) b c) s =
      .next { s with x := s.x.set r (v), pc := BitVec.ofNat 16 (s.pc.toNat + 4) })

/-- For every state, destination and legal b, not completes: register a is 32767 - b, which is b with bits 14..0
inverted, pc moves past three words. Every other field of the state is unchanged. -/
def Obligations.NotComplementsFifteenBits : Prop :=
  ∀ (s : State) (r : RegIdx) (b : Src) (vb : Word), Denotes b s vb →
    ∃ v : Word, v.toNat = 32767 - vb.toNat ∧ (∀ k, k < 15 → v.getLsbD k = !vb.getLsbD k) ∧
      exec (.not (.reg r) b) s =
      .next { s with x := s.x.set r (v), pc := BitVec.ofNat 16 (s.pc.toNat + 3) }

/-- For every state, destination and legal address: when the cell at the address is at most 32767 rmem completes,
register a is that value, pc moves past three words, every other field unchanged; else it raises NonWordValue,
the spec's own decision D8. That pc stays at the instruction is the spec's own decision D13 (log entry 16). -/
def Obligations.RmemReadsCellOrFaults : Prop :=
  ∀ (s : State) (r : RegIdx) (b : Src) (vb : Word), Denotes b s vb →
    ((s.mem.read vb.toNat).toNat ≤ 32767 → ∃ v : Word, v.toNat = (s.mem.read vb.toNat).toNat ∧
      exec (.rmem (.reg r) b) s =
      .next { s with x := s.x.set r (v), pc := BitVec.ofNat 16 (s.pc.toNat + 3) }) ∧
    (32767 < (s.mem.read vb.toNat).toNat → FaultsWith (.rmem (.reg r) b) s .nonWordValue)

/-- The encoding of wmem; for every state with memory in canonical form and legal operands it completes: the cell
at the value of a holds the Word b with bit 15 zero, every other address reads as before, memory stays
canonical, pc moves past three words, every other field is unchanged; an operand above 32775 raises
InvalidOperand. -/
def Obligations.WmemStoresWordAtAddress : Prop :=
  ∀ (s : State) (a b : Src), s.mem.wf →
    encode (.wmem a b) = [16#16, cellOfSrc a, cellOfSrc b] ∧
    (∀ va vb, Denotes a s va → Denotes b s vb → ∃ t, exec (.wmem a b) s = .next t ∧ t.mem.wf ∧
      (∀ n, (t.mem.read n).toNat = if n = va.toNat then vb.toNat else (s.mem.read n).toNat) ∧
      t = { s with mem := t.mem, pc := BitVec.ofNat 16 (s.pc.toNat + 3) }) ∧
    (a.legal = false ∨ b.legal = false → FaultsWith (.wmem a b) s .invalidOperand)

/-- For every state and legal target: when pc + 2 is at most 32767 call completes, pc + 2 is appended to the
stack, pc is the target, every other field unchanged; else it raises AddressOutOfRange, the spec's own
decision D9. That pc stays at the instruction is the spec's own decision D13 (log entry 16). -/
def Obligations.CallPushesReturnAddress : Prop :=
  ∀ (s : State) (a : Src) (v : Word), Denotes a s v →
    (s.pc.toNat + 2 ≤ 32767 → ∃ ra : Word, ra.toNat = s.pc.toNat + 2 ∧ exec (.call a) s =
      .next { s with stack := s.stack ++ [ra], pc := v.setWidth 16 }) ∧
    (32767 < s.pc.toNat + 2 → FaultsWith (.call a) s .addressOutOfRange)

/-- The encoding of ret; with a non-empty stack it completes, pc is the last element, the stack loses it, every
other field unchanged; with an empty stack ret and pop raise StackUnderflow with their own opcode in the
record. -/
def Obligations.RetPopsTargetOrUnderflows : Prop :=
  ∀ s : State,
    encode .ret = [18#16] ∧
    (∀ st v, s.stack = st ++ [v] → exec .ret s = .next { s with stack := st, pc := v.setWidth 16 }) ∧
    (s.stack = [] →
      exec .ret s = .next { s with status := .faulted ⟨.stackUnderflow, s.pc, some 18#16⟩ } ∧
      ∀ r, exec (.pop (.reg r)) s =
        .next { s with status := .faulted ⟨.stackUnderflow, s.pc, some 3#16⟩ })

/-- For every state halt completes: status is Halted and pc is the next address (decision D13 of the spec), every
other field unchanged. -/
def Obligations.HaltEndsRun : Prop :=
  ∀ s : State, exec .halt s = .next { s with status := .halted, pc := BitVec.ofNat 16 (s.pc.toNat + 1) }

/-- The encoding of noop; for every state it completes with pc past one word and every other field unchanged, at
address 32767 too. -/
def Obligations.NoopOnlyAdvances : Prop :=
  ∀ s : State, encode .noop = [21#16] ∧ exec .noop s = .next { s with pc := BitVec.ofNat 16 (s.pc.toNat + 1) }

/-- For every state and legal operand out completes its own effect: the Word is appended to output unchanged, pc
moves past two words, every other field unchanged. The boundary action that the step adds is stated
separately. That a code is a Word, passed on as it is, is the spec's own decision D16. -/
def Obligations.OutAppendsCode : Prop :=
  ∀ (s : State) (a : Src) (v : Word), Denotes a s v →
    exec (.out a) s = .next { s with output := s.output ++ [v], pc := BitVec.ofNat 16 (s.pc.toNat + 2) }

/-- For every state and destination register: with inbuf non-empty in completes with its head in register a and
the line source not asked; with inbuf empty and a non-empty line supplied the whole line is queued and its
first code taken; with NoLine it raises InputExhausted. Nothing else changes. -/
def Obligations.InTakesNextCharacter : Prop :=
  ∀ (s : State) (r : RegIdx),
    (∀ c rest, s.inbuf = c :: rest → exec (.inp (.reg r)) s =
      .next { s with x := s.x.set r c, inbuf := rest, pc := BitVec.ofNat 16 (s.pc.toNat + 2) }) ∧
    (∀ c rest more, s.inbuf = [] → s.lines = .line (c :: rest) :: more → exec (.inp (.reg r)) s =
      .next { s with x := s.x.set r c, inbuf := rest, lines := more, pc := BitVec.ofNat 16 (s.pc.toNat + 2) }) ∧
    (∀ more, s.inbuf = [] → s.lines = .noLine :: more → FaultsWith (.inp (.reg r)) s .inputExhausted)

/-- For every state with inbuf empty and destination register: an empty line counts as NoLine (the spec's own
decision D17) and raises InputExhausted; with no answer given the instruction has no next state and waits, the
model's stop awaitingLine (log entry 7). That pc stays at the instruction is the spec's own decision D13 (log
entry 16), that the empty line stays in lines is this model's choice (log entry 8). -/
def Obligations.InWithoutLineStopsOrWaits : Prop :=
  ∀ (s : State) (r : RegIdx), s.inbuf = [] →
    (∀ more, s.lines = .line [] :: more → FaultsWith (.inp (.reg r)) s .inputExhausted) ∧
    (s.lines = [] → exec (.inp (.reg r)) s = .fault .awaitingLine)

/-- When status is Running and the cells from pc on, all inside memory, are the encoding of a well-formed
instruction i, the step is exec of i at that state; a next state then goes through the boundary action, and a
fault or refusal is handed on. What the boundary action is, and that it comes after out only, is the spec's
own decision D18 (log entry 15) and stated in the controller's statements. -/
def Obligations.StepRunsInstructionAtPc : Prop :=
  ∀ (s : State) (i : Instr), s.status = .running → i.wf = true →
    s.pc.toNat + i.operandCount ≤ 32767 →
    (∀ k, k ≤ i.operandCount → (encode i)[k]? = some (s.mem.read (s.pc.toNat + k))) →
    step s = match exec i s with
      | .next t => .next (boundaryAction i t)
      | .fault f => .fault f
      | .refused q => .refused q

/-- For every Running state with pc in memory whose cell at pc is above 21 (the register encodings too), the step
answers the state with status Faulted(IllegalOpcode, pc, that cell) and every other field unchanged. -/
def Obligations.IllegalOpcodeFaults : Prop :=
  ∀ s : State, s.status = .running → s.pc.toNat ≤ 32767 → 21 < (s.mem.read s.pc.toNat).toNat →
    step s = .next { s with status := .faulted ⟨.illegalOpcode, s.pc, some (s.mem.read s.pc.toNat)⟩ }

/-- For every Running state: with pc above 32767 the step faults with AddressOutOfRange and no opcode in the
record; with the opcode in memory but some operand word above 32767 it faults with AddressOutOfRange and that
opcode, whatever the operand words in memory hold. pc does not wrap, opcode none, the priority and pc kept by
the fault are the spec's own decisions D4, D31, D11, D13 (log entry 16); a pc above 32768, which no run
reaches, faults likewise by this model's choice (log entry 5). -/
def Obligations.FetchPastMemoryEndFaults : Prop :=
  ∀ s : State, s.status = .running →
    (32767 < s.pc.toNat → step s = .next { s with status := .faulted ⟨.addressOutOfRange, s.pc, none⟩ }) ∧
    (∀ n, s.pc.toNat ≤ 32767 → 32767 < s.pc.toNat + n →
      ([0, 2, 1, 1, 3, 3, 1, 2, 2, 3, 3, 3, 3, 3, 2, 2, 2, 1, 0, 1, 1, 0] : List Nat)[(opcodeCell s).toNat]?
        = some n →
      step s = .next { s with status := .faulted ⟨.addressOutOfRange, s.pc, some (opcodeCell s)⟩ })

/-- For every step that ends Faulted, from any state: the state after it is the state before it with only status
changed, the record's address is the pc of the faulting instruction, and the record's opcode is the cell at
pc, or none when pc is outside memory. That pc stays (D13) and that the opcode is none there (D31) are the
spec's own decisions (log entry 16). -/
def Obligations.FaultChangesOnlyStatus : Prop :=
  ∀ (s s' : State) (f : FaultRecord), step s = .next s' → s'.status = .faulted f →
    s' = { s with status := .faulted f } ∧ f.addr = s.pc ∧
      f.opcode = if s.pc.toNat ≤ 32767 then some (opcodeCell s) else none

/-- A step stops with the model's notRunning exactly when status is not Running: the three terminal statuses have
no next state, and a Running machine never stops for this reason. The name notRunning is the model's own (log
entry 9). -/
def Obligations.NoStepUnlessRunning : Prop :=
  ∀ s : State, step s = .fault .notRunning ↔ s.status ≠ .running

/-- For every Running state the step answers a next state, or it is the wait of an in instruction (opcode 20 at
pc) with inbuf empty and no answer from the line source; no instruction is ever refused. The stop awaitingLine
and the queue of answers are the model's form of that wait (log entry 7). -/
def Obligations.RunningStepsUnlessWaiting : Prop :=
  ∀ s : State, s.status = .running →
    (∃ s', step s = .next s') ∨
      (step s = .fault .awaitingLine ∧ s.inbuf = [] ∧ s.lines = [] ∧ (opcodeCell s).toNat = 20)

/-- If a step waits for a line, then for every answer the line source gives, the step from that state with the
answer on the LINE port has a next state; a non-empty line leaves it Running with the line queued but for its
first code, and NoLine or an empty line makes it Faulted. That an empty line counts as NoLine is the spec's
own decision D17 and that pc stays at the instruction is D13; that the answer stays in lines on the fault is
this model's choice (log entry 8), and so is the queue of answers (log entry 7). -/
def Obligations.WaitEndsWithAnswer : Prop :=
  ∀ (s : State) (ans : LineAnswer), step s = .fault .awaitingLine →
    ∃ t, step (s.answerLine ans) = .next t ∧
      (∀ c rest, ans = .line (c :: rest) → t.status = .running ∧ t.inbuf = rest ∧ t.lines = []) ∧
      (ans = .noLine ∨ ans = .line [] → t = { s with
        lines := [ans], status := .faulted ⟨.inputExhausted, s.pc, some 20#16⟩ })

/-- For every step: output is unchanged, or it is the old output with one code appended and the instruction at pc
is out (opcode 19). Restores and faults never shorten it. -/
def Obligations.OutputIsAppendOnly : Prop :=
  ∀ s s' : State, step s = .next s' →
    s'.output = s.output ∨ ∃ c, s'.output = s.output ++ [c] ∧ (opcodeCell s).toNat = 19

/-- For every step: the configuration is unchanged and a checkpoint that exists is unchanged; if the instruction
is not out or CAL_ENABLE is false, then cp, cal_state, candidate and scan_base are unchanged. That the
boundary is after out only is the spec's own decision D18. -/
def Obligations.ControllerStateChangesOnlyAtOut : Prop :=
  ∀ s s' : State, step s = .next s' →
    s'.cfg = s.cfg ∧ (∀ c, s.cp = some c → s'.cp = some c) ∧
    ((opcodeCell s).toNat ≠ 19 ∨ s.cfg.calEnable = false →
      s'.cp = s.cp ∧ s'.calState = s.calState ∧ s'.candidate = s.candidate ∧ s'.scanBase = s.scanBase)

/-- For every step: if register r changes, then the opcode is one of the twelve with a destination and its operand
word a is 32768 + r, or the instruction is out with CAL_ENABLE true and the controller is Idle and r is the
designated register (the arming write) or Testing (a restore and the candidate write). That the controller
writes a register only at an out is the spec's own decision D18 (log entry 15). -/
def Obligations.RegistersWrittenOnlyAsListed : Prop :=
  ∀ (s s' : State) (r : RegIdx), step s = .next s' → s'.x[r] ≠ s.x[r] →
    ((opcodeCell s).toNat ∈ ([1, 3, 4, 5, 9, 10, 11, 12, 13, 14, 15, 20] : List Nat) ∧
      (s.mem.read (s.pc.toNat + 1)).toNat = 32768 + r.val) ∨
    ((opcodeCell s).toNat = 19 ∧ s.cfg.calEnable = true ∧
      (s.calState = .idle ∧ r = s.cfg.calReg ∨ s.calState = .testing))

/-- For every step from a state with memory in canonical form: if the cell at address n reads differently, then
the instruction is wmem and its operand a has the value n, or it is out with CAL_ENABLE true in Testing and
memory is the checkpoint's. A restore replaces all cells (R56) and belongs to a retry (R207); that it happens
only at an out is the spec's own decision D18 (log entry 15). -/
def Obligations.MemoryWrittenOnlyByWmemOrRestore : Prop :=
  ∀ (s s' : State) (n : Nat), s.mem.wf → step s = .next s' → s'.mem.read n ≠ s.mem.read n →
    ((opcodeCell s).toNat = 16 ∧
      ∃ v, Denotes (srcOfCell (s.mem.read (s.pc.toNat + 1))) s v ∧ v.toNat = n) ∨
    ((opcodeCell s).toNat = 19 ∧ s.cfg.calEnable = true ∧ s.calState = .testing ∧
      ∃ c, s.cp = some c ∧ s'.mem = c.mem)

/-- For every step: the stack is unchanged; or push or call has appended one Word; or pop or ret has removed the
last; or an out in Testing has restored the checkpoint's. That a restore happens only at an out, in Testing,
is the spec's own decision D18 (log entry 15). -/
def Obligations.StackChangesByOneElement : Prop :=
  ∀ s s' : State, step s = .next s' →
    s'.stack = s.stack ∨
    ((opcodeCell s).toNat ∈ ([2, 17] : List Nat) ∧ ∃ v, s'.stack = s.stack ++ [v]) ∨
    ((opcodeCell s).toNat ∈ ([3, 18] : List Nat) ∧ ∃ v, s.stack = s'.stack ++ [v]) ∨
    ((opcodeCell s).toNat = 19 ∧ s.calState = .testing ∧ ∃ c, s.cp = some c ∧ s'.stack = c.stack)

/-- For every step: if an answer of the line source is used, the instruction is in, inbuf was empty and exactly
one answer is used; if inbuf changes, the instruction is in or an out in Testing. A restore never gives back
or takes a line. That a restore happens only at an out is the spec's own decision D18 (log entry 15); the
queue of answers is the model's form of the LINE port (log entry 7). -/
def Obligations.LineSourceAskedOnlyByInWhenEmpty : Prop :=
  ∀ s s' : State, step s = .next s' →
    (s'.lines ≠ s.lines → (opcodeCell s).toNat = 20 ∧ s.inbuf = [] ∧ ∃ ans, s.lines = ans :: s'.lines) ∧
    (s'.inbuf ≠ s.inbuf → (opcodeCell s).toNat = 20 ∨ ((opcodeCell s).toNat = 19 ∧ s.calState = .testing))

/-- For every Running state with canonical memory and every wmem whose address is that of the following
instruction: the next opcode fetch reads the Word stored; when it is 0 the next step halts and when it is
above 21 the next step is an IllegalOpcode fault with it. That pc is the next address after the halt, and
stays at the instruction on the fault, is the spec's own decision D13 (log entry 16). -/
def Obligations.StoreSeenByNextFetch : Prop :=
  ∀ (s t : State) (a b : Src) (va vb : Word), s.mem.wf → s.status = .running →
    Denotes a s va → Denotes b s vb → va.toNat = s.pc.toNat + 3 → exec (.wmem a b) s = .next t →
    opcodeCell t = vb.setWidth 16 ∧
    (vb = 0#15 → step t = .next { t with status := .halted, pc := BitVec.ofNat 16 (t.pc.toNat + 1) }) ∧
    (21 < vb.toNat → step t =
      .next { t with status := .faulted ⟨.illegalOpcode, t.pc, some (vb.setWidth 16)⟩ })

/-- For every state with canonical memory, address, Word and register: wmem and then rmem at that address both
complete, and the register holds the Word. -/
def Obligations.WmemThenRmemReturnsWord : Prop :=
  ∀ (s : State) (a v : Word) (r : RegIdx), s.mem.wf →
    ∃ s1 s2, exec (.wmem (.lit a) (.lit v)) s = .next s1 ∧
      exec (.rmem (.reg r) (.lit a)) s1 = .next s2 ∧ s2.x[r] = v

/-- For every step from a state with canonical memory: a cell that holds a value above 32767 after it held the
same value before it, or memory is the checkpoint's. -/
def Obligations.NoStepMakesNonWordCell : Prop :=
  ∀ (s s' : State) (n : Nat), s.mem.wf → step s = .next s' → 32767 < (s'.mem.read n).toNat →
    s'.mem.read n = s.mem.read n ∨ ∃ c, s.cp = some c ∧ s'.mem = c.mem

/-- With no checkpoint, capture stores memory, registers, stack, pc, inbuf and the length of output and changes no
live state; with one, it changes nothing, the spec's own decision D22. -/
def Obligations.CaptureSnapshotsOnce : Prop :=
  ∀ s : State,
    (s.cp = none → s.capture =
      { s with cp := some ⟨s.mem, s.x, s.stack, s.pc, s.inbuf, s.output.length⟩ }) ∧
    (∀ c, s.cp = some c → s.capture = s)

/-- With a checkpoint, restore puts back its memory, registers, stack, pc and inbuf whole; output, status, the
checkpoint, the controller state, the configuration and the lines are unchanged. -/
def Obligations.RestoreReplacesFiveSubstates : Prop :=
  ∀ (s : State) (c : Checkpoint), s.cp = some c → s.restore =
    { s with mem := c.mem, x := c.x, stack := c.stack, pc := c.pc, inbuf := c.inbuf }

/-- For every state with no checkpoint, any number of steps run after a capture, whatever instructions they
execute: restoring then gives memory, registers, stack, pc and inbuf equal to those right after the capture. -/
def Obligations.RestoreReturnsToCapture : Prop :=
  ∀ (s t : State) (k : Nat), s.cp = none →
    Host.Core.run Sys2Proof.core k s.capture = .next t → SameCaptured s.capture t.restore

/-- For every Running state at an out with CAL_ENABLE true, Idle and no checkpoint: if the new output ends with
ARM_STR and the designated register is 0, the step captures the state after the out, sets scan_base to the
output length, writes the candidate and is Testing; else it is the out alone. Suffix matching at out only,
scan_base at the capture and Armed not resting are the spec's own decisions D18, D19, D24. -/
def Obligations.OutArmsController : Prop :=
  ∀ (s : State) (a : Src) (v : Word), s.status = .running → fetch s = .ok (.out a) → Denotes a s v →
    s.cfg.calEnable = true → s.calState = .idle → s.cp = none →
    (CompletedAt s.cfg.armStr 0 (s.output ++ [v]) → s.x[s.cfg.calReg] = 0#15 → step s =
      .next { s with
        output := s.output ++ [v], pc := BitVec.ofNat 16 (s.pc.toNat + 2),
        cp := some ⟨s.mem, s.x, s.stack, BitVec.ofNat 16 (s.pc.toNat + 2), s.inbuf, (s.output ++ [v]).length⟩,
        scanBase := (s.output ++ [v]).length, x := s.x.set s.cfg.calReg s.candidate,
        calState := .testing }) ∧
    (¬ (CompletedAt s.cfg.armStr 0 (s.output ++ [v]) ∧ s.x[s.cfg.calReg] = 0#15) → step s =
      .next { s with output := s.output ++ [v], pc := BitVec.ofNat 16 (s.pc.toNat + 2) })

/-- For every Running state at an out with CAL_ENABLE true in Testing: if the new output from scan_base on ends
with ACC_STR the step is the out and cal_state Accepted, whether or not REJ_STR is completed too (the spec's
own decision D18); if it ends with neither, the step is the out alone. -/
def Obligations.AcceptanceOracleAccepts : Prop :=
  ∀ (s : State) (a : Src) (v : Word), s.status = .running → fetch s = .ok (.out a) → Denotes a s v →
    s.cfg.calEnable = true → s.calState = .testing →
    (CompletedAt s.cfg.accStr s.scanBase (s.output ++ [v]) → step s =
      .next { s with output := s.output ++ [v], pc := BitVec.ofNat 16 (s.pc.toNat + 2), calState := .accepted }) ∧
    (¬ CompletedAt s.cfg.accStr s.scanBase (s.output ++ [v]) → ¬ CompletedAt s.cfg.rejStr s.scanBase (s.output ++ [v]) → step s =
      .next { s with output := s.output ++ [v], pc := BitVec.ofNat 16 (s.pc.toNat + 2) })

/-- For every Running state at an out with CAL_ENABLE true in Testing with checkpoint c, a candidate other than
CAND_LAST, the rejection oracle completed and the acceptance oracle not: the step keeps the output with the
new code, restores the five substates of c, moves scan_base to the output length, and writes candidate + 1 to
candidate and to the designated register. Matching at the out with acceptance tested first (D18) and moving
scan_base (D19) are the spec's own decisions; that the next candidate is a 15-bit Word is log entry 14. -/
def Obligations.RejectionOracleRetries : Prop :=
  ∀ (s : State) (a : Src) (v : Word) (c : Checkpoint), s.status = .running →
    fetch s = .ok (.out a) → Denotes a s v → s.cfg.calEnable = true → s.calState = .testing →
    s.cp = some c → s.candidate ≠ s.cfg.candLast →
    ¬ CompletedAt s.cfg.accStr s.scanBase (s.output ++ [v]) →
    CompletedAt s.cfg.rejStr s.scanBase (s.output ++ [v]) →
    step s = .next { s with
      output := s.output ++ [v], scanBase := (s.output ++ [v]).length,
      mem := c.mem, stack := c.stack, pc := c.pc, inbuf := c.inbuf,
      x := c.x.set s.cfg.calReg (s.candidate + 1#15), candidate := s.candidate + 1#15 }

/-- For every Running state at an out with CAL_ENABLE true in Testing with candidate CAND_LAST, the rejection
oracle completed and the acceptance oracle not: the step is the out with cal_state and status Exhausted,
nothing restored or written, and there is no fault record. Matching at the out with acceptance tested first
(D18) and the end state (D21) are the spec's own decisions. -/
def Obligations.LastRejectionExhausts : Prop :=
  ∀ (s : State) (a : Src) (v : Word), s.status = .running → fetch s = .ok (.out a) → Denotes a s v →
    s.cfg.calEnable = true → s.calState = .testing → s.candidate = s.cfg.candLast →
    ¬ CompletedAt s.cfg.accStr s.scanBase (s.output ++ [v]) → CompletedAt s.cfg.rejStr s.scanBase (s.output ++ [v]) →
    ∃ t, step s = .next t ∧ t.faultRecord = none ∧
      t = { s with output := s.output ++ [v], pc := BitVec.ofNat 16 (s.pc.toNat + 2), calState := .exhausted, status := .exhausted }

/-- For every Running state in Accepted at an out, whatever the output shows, the step is the out alone: nothing
is captured, restored or written, and status stays Running, the spec's own decision D25. -/
def Obligations.AcceptedControllerNeverActs : Prop :=
  ∀ (s : State) (a : Src) (v : Word), s.status = .running → fetch s = .ok (.out a) → Denotes a s v →
    s.cfg.calEnable = true → s.calState = .accepted →
    step s = .next { s with output := s.output ++ [v], pc := BitVec.ofNat 16 (s.pc.toNat + 2) }

/-- For every state with CAL_ENABLE false and any other configuration with CAL_ENABLE false: the step from the
state with that configuration answers the same, the configuration apart. So the six configuration values that
State.reset holds (DESIGN CHOICE of log entry 6) reach no step. -/
def Obligations.PlainEngineIgnoresConfiguration : Prop :=
  ∀ (s : State) (c : Config), s.cfg.calEnable = false → c.calEnable = false →
    step { s with cfg := c } = match step s with
      | .next t => .next { t with cfg := c }
      | .fault f => .fault f
      | .refused q => .refused q

/-- For every step: candidate is unchanged, or the instruction is out in Testing, the candidate was not CAND_LAST,
it went up by one and the designated register holds it. That a retry happens only at an out is the spec's own
decision D18 (log entry 15), that it is not made at CAND_LAST is D21; that the candidate is a 15-bit Word is
log entry 14. -/
def Obligations.CandidateStepsUpByOne : Prop :=
  ∀ s s' : State, step s = .next s' →
    s'.candidate = s.candidate ∨
      ((opcodeCell s).toNat = 19 ∧ s.calState = .testing ∧ s.candidate ≠ s.cfg.candLast ∧
        s'.candidate = s.candidate + 1#15 ∧ s'.x[s.cfg.calReg] = s'.candidate)

/-- State.reset has every register 0, pc 0, every cell 0 (the empty image), stack, inbuf and output empty, status
Running, no fault record, no checkpoint, Idle, candidate CAND_FIRST, scan_base 0. The zeros and empties are
the spec's own decisions; CAL_ENABLE false, the empty image and no line are this model's choices (log entries
6, 7 and 11). -/
def Obligations.ResetHasListedValues : Prop :=
  (∀ r : RegIdx, State.reset.x[r] = 0#15) ∧ State.reset.pc = 0#16 ∧
  (∀ n, State.reset.mem.read n = 0#16) ∧ State.reset.stack = [] ∧ State.reset.inbuf = [] ∧
  State.reset.output = [] ∧ State.reset.status = .running ∧ State.reset.faultRecord = none ∧
  State.reset.cp = none ∧ State.reset.calState = .idle ∧
  State.reset.candidate = State.reset.cfg.candFirst ∧ State.reset.scanBase = 0 ∧
  State.reset.cfg.calEnable = false

/-- launch answers a state exactly when the configuration is valid and the image has at most 32768 cells; that
state is State.reset but for memory, candidate CAND_FIRST, configuration and lines, and cell n holds image[n]
or 0 beyond the image (decision D3). The cells of a file of an even number of bytes are low byte + 256 * high
byte; a file of odd length has none (decision D28). Refusing an ill-formed configuration or an over-long image
is decision D23 and D28 (log entry 10); lines holds the answers given beforehand (log entry 7). -/
def Obligations.LaunchLoadsImageVerbatim : Prop :=
  (∀ (cfg : Config) (image : List Cell) (lines : List LineAnswer) (s : State),
    launch cfg image lines = some s ↔
      cfg.valid = true ∧ image.length ≤ 32768 ∧ s.mem.wf ∧
      (∀ n, s.mem.read n = image.getD n 0#16) ∧
      s = { State.reset with mem := s.mem, candidate := cfg.candFirst, cfg := cfg, lines := lines }) ∧
  (∀ bytes : List (BitVec 8),
    (bytes.length % 2 = 1 → imageOfBytes bytes = none) ∧
    (bytes.length % 2 = 0 → ∃ image, imageOfBytes bytes = some image ∧ bytes.length = 2 * image.length ∧
      ∀ n, (image.getD n 0#16).toNat =
        (bytes.getD (2 * n) 0#8).toNat + 256 * (bytes.getD (2 * n + 1) 0#8).toNat))

/-- State.reset satisfies the invariant of the machine (with the configuration this model chose for it, log entry
6). -/
def Obligations.InvariantHoldsAtReset : Prop :=
  Inv State.reset

/-- For every configuration, image and lines that launch accepts, the first state satisfies the invariant. The
refusal of an ill-formed configuration is the spec's own decision D23 and the reset values are D1, D2, D3, D19
and D21. -/
def Obligations.LaunchEstablishesInvariant : Prop :=
  ∀ (cfg : Config) (image : List Cell) (lines : List LineAnswer) (s : State),
    launch cfg image lines = some s → Inv s

/-- From every state that satisfies the invariant, every step that answers a next state answers one that satisfies
it: memory stays canonical and inside 0..32767, pc stays in 0..32768, the checkpoint stays a legal snapshot
with the designated register at 0, cal_state and cp agree, Armed never rests, candidate stays in
CAND_FIRST..CAND_LAST, scan_base stays inside output, Exhausted agrees in controller and status, and a fault
record names pc. The range of pc (D4), pc kept by a fault (D13), scan_base (D19), the end at CAND_LAST (D21)
and Armed (D24) are the spec's own decisions; the canonical form of memory (log entries 1 and 2) and the
candidate as a Word (log entry 14) are the model's. -/
def Obligations.StepKeepsInvariant : Prop :=
  ∀ s s' : State, Inv s → step s = .next s' → Inv s'
end

