-- ==== Sys2Proof/Laws/Decode.lean ====
section
/-! SUPPORT. The laws of operand cells and of the decoder's rejections. -/

namespace Sys2Proof

/-- What `srcOfCell` gives, by the three ranges of R68. -/
theorem srcOfCell_cases (w : Cell) :
    (w.toNat ≤ 32767 ∧ srcOfCell w = .lit (w.setWidth 15)) ∨
      (∃ r : RegIdx, w.toNat = 32768 + r.val ∧ srcOfCell w = .reg r) ∨
      (32775 < w.toNat ∧ srcOfCell w = .invalid w) := by
  unfold srcOfCell
  split
  · exact .inl ⟨‹_›, rfl⟩
  · split
    · rename_i h1 h2
      exact .inr (.inl ⟨⟨w.toNat - 32768, h2⟩, by simp only; omega, rfl⟩)
    · exact .inr (.inr ⟨by omega, rfl⟩)

/-- What `dstOfCell` gives, by the three ranges of R68. -/
theorem dstOfCell_cases (w : Cell) :
    (w.toNat ≤ 32767 ∧ dstOfCell w = .invalid w) ∨
      (∃ r : RegIdx, w.toNat = 32768 + r.val ∧ dstOfCell w = .reg r) ∨
      (32775 < w.toNat ∧ dstOfCell w = .invalid w) := by
  unfold dstOfCell
  split
  · exact .inl ⟨‹_›, rfl⟩
  · split
    · rename_i h1 h2
      exact .inr (.inl ⟨⟨w.toNat - 32768, h2⟩, by simp only; omega, rfl⟩)
    · exact .inr (.inr ⟨by omega, rfl⟩)

theorem srcOfCell_wf (w : Cell) : (srcOfCell w).wf = true := by
  rcases srcOfCell_cases w with ⟨-, h⟩ | ⟨r, -, h⟩ | ⟨hw, h⟩ <;> simp [h, Src.wf]
  exact hw

theorem dstOfCell_wf (w : Cell) : (dstOfCell w).wf = true := by
  rcases dstOfCell_cases w with ⟨hw, h⟩ | ⟨r, -, h⟩ | ⟨hw, h⟩ <;> simp [h, Dst.wf] <;> omega

theorem cellOfSrc_srcOfCell (w : Cell) : cellOfSrc (srcOfCell w) = w := by
  rcases srcOfCell_cases w with ⟨hw, h⟩ | ⟨r, hr, h⟩ | ⟨-, h⟩ <;> rw [h] <;> simp only [cellOfSrc]
  · apply BitVec.eq_of_toNat_eq
    simp only [BitVec.toNat_setWidth]
    omega
  · rw [← hr, BitVec.ofNat_toNat, BitVec.setWidth_eq]

theorem cellOfDst_dstOfCell (w : Cell) : cellOfDst (dstOfCell w) = w := by
  rcases dstOfCell_cases w with ⟨-, h⟩ | ⟨r, hr, h⟩ | ⟨-, h⟩ <;> rw [h] <;> simp only [cellOfDst]
  rw [← hr, BitVec.ofNat_toNat, BitVec.setWidth_eq]

theorem regCell_toNat (r : RegIdx) : (BitVec.ofNat 16 (32768 + r.val)).toNat = 32768 + r.val := by
  have := r.isLt
  simp only [BitVec.toNat_ofNat]
  omega

theorem srcOfCell_cellOfSrc {o : Src} (h : o.wf = true) : srcOfCell (cellOfSrc o) = o := by
  cases o with
  | lit v =>
    have hv := v.isLt
    have h1 : (v.setWidth 16 : Cell).toNat = v.toNat := by
      simp only [BitVec.toNat_setWidth]; omega
    rcases srcOfCell_cases (v.setWidth 16) with ⟨-, h2⟩ | ⟨r, h2, -⟩ | ⟨h2, -⟩
    · rw [cellOfSrc, h2]
      congr 1
      apply BitVec.eq_of_toNat_eq
      simp only [BitVec.toNat_setWidth]
      omega
    · omega
    · omega
  | reg r =>
    have hr := regCell_toNat r
    have := r.isLt
    rcases srcOfCell_cases (BitVec.ofNat 16 (32768 + r.val)) with ⟨h2, -⟩ | ⟨q, h2, h3⟩ | ⟨h2, -⟩
    · omega
    · rw [cellOfSrc, h3]
      congr 1
      apply Fin.ext
      omega
    · omega
  | invalid w =>
    have hw : 32775 < w.toNat := by simpa [Src.wf] using h
    rcases srcOfCell_cases w with ⟨h2, -⟩ | ⟨r, h2, -⟩ | ⟨-, h2⟩
    · omega
    · have := r.isLt; omega
    · exact h2

theorem dstOfCell_cellOfDst {o : Dst} (h : o.wf = true) : dstOfCell (cellOfDst o) = o := by
  cases o with
  | reg r =>
    have hr := regCell_toNat r
    have := r.isLt
    rcases dstOfCell_cases (BitVec.ofNat 16 (32768 + r.val)) with ⟨h2, -⟩ | ⟨q, h2, h3⟩ | ⟨h2, -⟩
    · omega
    · rw [cellOfDst, h3]
      congr 1
      apply Fin.ext
      omega
    · omega
  | invalid w =>
    have hw : w.toNat < 32768 ∨ 32775 < w.toNat := by simpa [Dst.wf] using h
    rcases dstOfCell_cases w with ⟨-, h2⟩ | ⟨r, h2, -⟩ | ⟨-, h2⟩
    · exact h2
    · have := r.isLt; omega
    · exact h2

/-- An opcode outside 0..21 is rejected by name (R65). -/
theorem decode_illegal {op : Cell} {rest : List Cell} (h : 21 < op.toNat) :
    decode (op :: rest) = .error (.illegalOpcode op) := by
  simp only [decode, decodeOpcode]
  split <;> first | omega | rfl

/-- An instruction's opcode is the first cell the decoder read. -/
theorem opcode_of_decode {op : Cell} {rest rest' : List Cell} {i : Instr}
    (h : decode (op :: rest) = .ok (i, rest')) : i.opcode = op := by
  simp only [decode] at h
  unfold decodeOpcode at h
  have key : ∀ n : Nat, op.toNat = n → n < 65536 → op = BitVec.ofNat 16 n := by
    intro n hn _
    rw [← hn, BitVec.ofNat_toNat, BitVec.setWidth_eq]
  split at h <;> rename_i hop <;>
    first
    | (unfold takeThree at h; split at h <;> cases h; rw [key _ hop (by omega)]; rfl)
    | (unfold takeTwo at h; split at h <;> cases h; rw [key _ hop (by omega)]; rfl)
    | (unfold takeOne at h; split at h <;> cases h; rw [key _ hop (by omega)]; rfl)
    | (cases h; rw [key _ hop (by omega)]; rfl)
    | cases h

end Sys2Proof
end

