-- ==== Sys2Proof/Laws/Memory.lean ====
section
/-! SUPPORT. The laws of memory: a read after a write, and that every operation keeps the canonical form, in
which memories that read alike are equal lists. -/

namespace Sys2Proof.Machine

/-- Every listed address is above `a`. -/
def Memory.Above (a : Nat) (m : Memory) : Prop := ∀ p ∈ m, a < p.1

theorem Memory.wf_nil : Memory.wf [] := ⟨List.Pairwise.nil, by simp⟩

theorem Memory.wf_cons_iff {p : Nat × Cell} {m : Memory} :
    Memory.wf (p :: m) ↔ p.1 < 32768 ∧ p.2 ≠ 0#16 ∧ m.Above p.1 ∧ m.wf := by
  simp only [Memory.wf, Memory.Above, List.pairwise_cons, List.mem_cons, forall_eq_or_imp]
  tauto

theorem Memory.read_of_above {a : Nat} : ∀ {m : Memory}, m.Above a → m.read a = 0#16
  | [], _ => rfl
  | p :: m, h => by
    have hp : a < p.1 := h p (by simp)
    have hm : Memory.Above a m := fun q hq => h q (by simp [hq])
    simp [Memory.read, Nat.ne_of_gt hp, Memory.read_of_above hm]

/-- An address outside 0..32767 is never listed in a canonical memory. -/
theorem Memory.read_out_of_range {m : Memory} (h : m.wf) {a : Nat} (ha : 32767 < a) : m.read a = 0#16 := by
  induction m with
  | nil => rfl
  | cons p m ih =>
    obtain ⟨hp, -, -, hm⟩ := Memory.wf_cons_iff.1 h
    have : p.1 ≠ a := by omega
    simp [Memory.read, this, ih hm]

theorem Memory.read_cons {a b : Nat} {v : Cell} {m : Memory} (h : m.Above b) :
    (Memory.cons b v m).read a = if a = b then v else m.read a := by
  unfold Memory.cons
  by_cases hv : v = 0#16
  · by_cases hab : a = b
    · subst hab; simp [hv, Memory.read_of_above h]
    · simp [hv, hab]
  · by_cases hab : a = b
    · subst hab; simp [hv, Memory.read]
    · simp [hv, hab, Memory.read, Ne.symm hab]

theorem Memory.cons_wf {a : Nat} {v : Cell} {m : Memory} (ha : a < 32768) (h : m.Above a) (hm : m.wf) :
    (Memory.cons a v m).wf := by
  unfold Memory.cons
  split
  · exact hm
  · exact Memory.wf_cons_iff.2 ⟨ha, ‹_›, h, hm⟩

theorem Memory.cons_above {a b : Nat} {v : Cell} {m : Memory} (hab : b < a) (h : m.Above b) :
    (Memory.cons a v m).Above b := by
  unfold Memory.cons
  split
  · exact h
  · intro p hp
    rcases List.mem_cons.1 hp with rfl | hp
    · exact hab
    · exact h p hp

theorem Memory.Above.mono {a b : Nat} {m : Memory} (h : m.Above b) (hab : a ≤ b) : m.Above a :=
  fun p hp => Nat.lt_of_le_of_lt hab (h p hp)

theorem Memory.write_above {a b : Nat} {v : Cell} : ∀ {m : Memory}, b < a → m.Above b → (m.write a v).Above b
  | [], hab, h => Memory.cons_above hab h
  | p :: m, hab, h => by
    have hm : Memory.Above b m := fun q hq => h q (by simp [hq])
    unfold Memory.write
    split
    · exact Memory.cons_above hab h
    · split
      · exact Memory.cons_above hab hm
      · intro q hq
        rcases List.mem_cons.1 hq with heq | hq
        · exact heq ▸ h p (by simp)
        · exact Memory.write_above hab hm q hq

/-- A write keeps the canonical form. -/
theorem Memory.write_wf {a : Nat} {v : Cell} (ha : a < 32768) : ∀ {m : Memory}, m.wf → (m.write a v).wf
  | [], h => Memory.cons_wf ha (by simp [Memory.Above]) h
  | p :: m, h => by
    obtain ⟨hp, hv, hab, hm⟩ := Memory.wf_cons_iff.1 h
    unfold Memory.write
    split
    · rename_i hlt
      refine Memory.cons_wf ha ?_ h
      intro q hq
      rcases List.mem_cons.1 hq with rfl | hq
      · exact hlt
      · exact lt_trans hlt (hab q hq)
    · split
      · rename_i heq
        exact Memory.cons_wf ha (heq ▸ hab) hm
      · exact Memory.wf_cons_iff.2 ⟨hp, hv, Memory.write_above (by omega) hab, Memory.write_wf ha hm⟩

/-- A read after a write gives the value written, and every other address reads as before. -/
theorem Memory.read_write {a b : Nat} {v : Cell} : ∀ {m : Memory}, m.wf →
    (m.write a v).read b = if b = a then v else m.read b
  | [], _ => Memory.read_cons (by simp [Memory.Above])
  | p :: m, h => by
    obtain ⟨-, -, hab, hm⟩ := Memory.wf_cons_iff.1 h
    unfold Memory.write
    split
    · rename_i hlt
      refine Memory.read_cons ?_
      intro q hq
      rcases List.mem_cons.1 hq with rfl | hq
      · exact hlt
      · exact lt_trans hlt (hab q hq)
    · split
      · rename_i heq
        rw [Memory.read_cons (heq ▸ hab)]
        subst heq
        by_cases hb : b = p.1
        · simp [hb]
        · simp [hb, Memory.read, Ne.symm hb]
      · rename_i hne
        simp only [Memory.read, Memory.read_write hm]
        by_cases hb : p.1 = b
        · simp [hb]; intro h'; omega
        · simp [hb]

theorem Memory.read_write_same {a : Nat} {v : Cell} {m : Memory} (h : m.wf) : (m.write a v).read a = v := by
  simp [Memory.read_write h]

theorem Memory.read_write_ne {a b : Nat} {v : Cell} {m : Memory} (h : m.wf) (hb : b ≠ a) :
    (m.write a v).read b = m.read b := by
  simp [Memory.read_write h, hb]

/-- Memories in canonical form that read alike are equal lists. -/
theorem Memory.ext_of_wf : ∀ {m n : Memory}, m.wf → n.wf → (∀ a, m.read a = n.read a) → m = n
  | [], [], _, _, _ => rfl
  | [], q :: n, _, hn, h => by
    obtain ⟨-, hq, -, -⟩ := Memory.wf_cons_iff.1 hn
    have := h q.1
    simp [Memory.read] at this
    exact absurd this.symm hq
  | p :: m, [], hm, _, h => by
    obtain ⟨-, hp, -, -⟩ := Memory.wf_cons_iff.1 hm
    have := h p.1
    simp [Memory.read] at this
    exact absurd this hp
  | p :: m, q :: n, hm, hn, h => by
    obtain ⟨-, hp, hpa, hm'⟩ := Memory.wf_cons_iff.1 hm
    obtain ⟨-, hq, hqa, hn'⟩ := Memory.wf_cons_iff.1 hn
    have hpq : p.1 = q.1 := by
      rcases lt_trichotomy p.1 q.1 with hlt | heq | hlt
      · exfalso
        have hab : Memory.Above p.1 (q :: n) := by
          intro r hr
          rcases List.mem_cons.1 hr with rfl | hr
          · exact hlt
          · exact lt_trans hlt (hqa r hr)
        have := h p.1
        rw [Memory.read_of_above hab] at this
        simp [Memory.read] at this
        exact hp this
      · exact heq
      · exfalso
        have hab : Memory.Above q.1 (p :: m) := by
          intro r hr
          rcases List.mem_cons.1 hr with rfl | hr
          · exact hlt
          · exact lt_trans hlt (hpa r hr)
        have := h q.1
        rw [Memory.read_of_above hab] at this
        simp [Memory.read] at this
        exact hq this.symm
    have hval : p.2 = q.2 := by
      have := h p.1
      simpa [Memory.read, hpq] using this
    have htail : ∀ a, Memory.read m a = Memory.read n a := by
      intro a
      by_cases ha : p.1 = a
      · subst ha
        rw [Memory.read_of_above hpa, Memory.read_of_above (hpq ▸ hqa)]
      · have := h a
        simpa [Memory.read, ha, hpq ▸ ha] using this
    rw [Memory.ext_of_wf hm' hn' htail, Prod.ext hpq hval]

theorem Memory.writeAll_wf : ∀ {ws : List Cell} {m : Memory} {a : Nat}, m.wf → (m.writeAll a ws).wf
  | [], _, _, h => h
  | _ :: _, _, _, h => by
    unfold Memory.writeAll
    split
    · exact Memory.writeAll_wf (Memory.write_wf (by omega) h)
    · exact h

theorem Memory.ofImage_above {b : Nat} : ∀ {ws : List Cell} {a : Nat}, b < a → (Memory.ofImage a ws).Above b
  | [], _, _ => by simp [Memory.ofImage, Memory.Above]
  | _ :: _, _, h => Memory.cons_above h (Memory.ofImage_above (by omega))

/-- The image lies in memory in canonical form (R261). -/
theorem Memory.ofImage_wf : ∀ {ws : List Cell} {a : Nat}, a + ws.length ≤ 32768 → (Memory.ofImage a ws).wf
  | [], _, _ => Memory.wf_nil
  | _ :: ws, _, h => by
    simp only [List.length_cons] at h
    exact Memory.cons_wf (by omega) (Memory.ofImage_above (by omega)) (Memory.ofImage_wf (by omega))

/-- Reading a cell of the image gives the image's value; beyond it, 0 (R261). -/
theorem Memory.read_ofImage : ∀ {ws : List Cell} {a i : Nat},
    (Memory.ofImage a ws).read (a + i) = ws.getD i 0#16
  | [], _, _ => by simp [Memory.ofImage, Memory.read]
  | w :: ws, a, i => by
    rw [Memory.ofImage, Memory.read_cons (Memory.ofImage_above (by omega))]
    cases i with
    | zero => simp
    | succ i =>
      have hne : a + (i + 1) ≠ a := by omega
      have heq : a + (i + 1) = a + 1 + i := by omega
      rw [if_neg hne, heq, Memory.read_ofImage]
      simp

/-- The cells a fetch sees (R92, R93): the k-th is the cell at `a + k`, and they end at address 32767. -/
theorem Memory.window_succ (m : Memory) (a n : Nat) :
    m.window a (n + 1) = if a ≤ 32767 then m.read a :: m.window (a + 1) n else [] := rfl

theorem Memory.window_length (m : Memory) : ∀ (n a : Nat), a ≤ 32768 →
    (m.window a n).length = min n (32768 - a)
  | 0, _, _ => by simp [Memory.window]
  | n + 1, a, h => by
    unfold Memory.window
    split
    · simp [Memory.window_length m n (a + 1) (by omega)]; omega
    · simp; omega

theorem State.reset_mem_wf : State.reset.mem.wf := Memory.wf_nil

end Sys2Proof.Machine
end

