-- ==== Sys2Proof/Laws/State.lean ====
section
/-! SUPPORT. One lemma per field per update of State, so that no proof unfolds a record update. -/

namespace Sys2Proof.Machine

variable (s : State)

@[simp] theorem State.advance_x (n : Nat) : (s.advance n).x = s.x := rfl
@[simp] theorem State.advance_pc (n : Nat) : (s.advance n).pc = BitVec.ofNat 16 (s.pc.toNat + 1 + n) := rfl
@[simp] theorem State.advance_mem (n : Nat) : (s.advance n).mem = s.mem := rfl
@[simp] theorem State.advance_stack (n : Nat) : (s.advance n).stack = s.stack := rfl
@[simp] theorem State.advance_inbuf (n : Nat) : (s.advance n).inbuf = s.inbuf := rfl
@[simp] theorem State.advance_output (n : Nat) : (s.advance n).output = s.output := rfl
@[simp] theorem State.advance_status (n : Nat) : (s.advance n).status = s.status := rfl
@[simp] theorem State.advance_cp (n : Nat) : (s.advance n).cp = s.cp := rfl
@[simp] theorem State.advance_calState (n : Nat) : (s.advance n).calState = s.calState := rfl
@[simp] theorem State.advance_candidate (n : Nat) : (s.advance n).candidate = s.candidate := rfl
@[simp] theorem State.advance_scanBase (n : Nat) : (s.advance n).scanBase = s.scanBase := rfl
@[simp] theorem State.advance_cfg (n : Nat) : (s.advance n).cfg = s.cfg := rfl
@[simp] theorem State.advance_lines (n : Nat) : (s.advance n).lines = s.lines := rfl

@[simp] theorem State.jump_x (t : Word) : (s.jump t).x = s.x := rfl
@[simp] theorem State.jump_pc (t : Word) : (s.jump t).pc = t.setWidth 16 := rfl
@[simp] theorem State.jump_mem (t : Word) : (s.jump t).mem = s.mem := rfl
@[simp] theorem State.jump_stack (t : Word) : (s.jump t).stack = s.stack := rfl
@[simp] theorem State.jump_inbuf (t : Word) : (s.jump t).inbuf = s.inbuf := rfl
@[simp] theorem State.jump_output (t : Word) : (s.jump t).output = s.output := rfl
@[simp] theorem State.jump_status (t : Word) : (s.jump t).status = s.status := rfl
@[simp] theorem State.jump_cp (t : Word) : (s.jump t).cp = s.cp := rfl
@[simp] theorem State.jump_calState (t : Word) : (s.jump t).calState = s.calState := rfl
@[simp] theorem State.jump_candidate (t : Word) : (s.jump t).candidate = s.candidate := rfl
@[simp] theorem State.jump_scanBase (t : Word) : (s.jump t).scanBase = s.scanBase := rfl
@[simp] theorem State.jump_cfg (t : Word) : (s.jump t).cfg = s.cfg := rfl
@[simp] theorem State.jump_lines (t : Word) : (s.jump t).lines = s.lines := rfl

@[simp] theorem State.writeReg_x (r : RegIdx) (v : Word) : (s.writeReg r v).x = s.x.set r v := rfl
@[simp] theorem State.writeReg_pc (r : RegIdx) (v : Word) : (s.writeReg r v).pc = s.pc := rfl
@[simp] theorem State.writeReg_mem (r : RegIdx) (v : Word) : (s.writeReg r v).mem = s.mem := rfl
@[simp] theorem State.writeReg_stack (r : RegIdx) (v : Word) : (s.writeReg r v).stack = s.stack := rfl
@[simp] theorem State.writeReg_inbuf (r : RegIdx) (v : Word) : (s.writeReg r v).inbuf = s.inbuf := rfl
@[simp] theorem State.writeReg_output (r : RegIdx) (v : Word) : (s.writeReg r v).output = s.output := rfl
@[simp] theorem State.writeReg_status (r : RegIdx) (v : Word) : (s.writeReg r v).status = s.status := rfl
@[simp] theorem State.writeReg_cp (r : RegIdx) (v : Word) : (s.writeReg r v).cp = s.cp := rfl
@[simp] theorem State.writeReg_calState (r : RegIdx) (v : Word) : (s.writeReg r v).calState = s.calState := rfl
@[simp] theorem State.writeReg_candidate (r : RegIdx) (v : Word) : (s.writeReg r v).candidate = s.candidate := rfl
@[simp] theorem State.writeReg_scanBase (r : RegIdx) (v : Word) : (s.writeReg r v).scanBase = s.scanBase := rfl
@[simp] theorem State.writeReg_cfg (r : RegIdx) (v : Word) : (s.writeReg r v).cfg = s.cfg := rfl
@[simp] theorem State.writeReg_lines (r : RegIdx) (v : Word) : (s.writeReg r v).lines = s.lines := rfl

@[simp] theorem State.storeCell_x (a : Nat) (v : Cell) : (s.storeCell a v).x = s.x := rfl
@[simp] theorem State.storeCell_pc (a : Nat) (v : Cell) : (s.storeCell a v).pc = s.pc := rfl
@[simp] theorem State.storeCell_mem (a : Nat) (v : Cell) : (s.storeCell a v).mem = s.mem.write a v := rfl
@[simp] theorem State.storeCell_stack (a : Nat) (v : Cell) : (s.storeCell a v).stack = s.stack := rfl
@[simp] theorem State.storeCell_inbuf (a : Nat) (v : Cell) : (s.storeCell a v).inbuf = s.inbuf := rfl
@[simp] theorem State.storeCell_output (a : Nat) (v : Cell) : (s.storeCell a v).output = s.output := rfl
@[simp] theorem State.storeCell_status (a : Nat) (v : Cell) : (s.storeCell a v).status = s.status := rfl
@[simp] theorem State.storeCell_cp (a : Nat) (v : Cell) : (s.storeCell a v).cp = s.cp := rfl
@[simp] theorem State.storeCell_calState (a : Nat) (v : Cell) : (s.storeCell a v).calState = s.calState := rfl
@[simp] theorem State.storeCell_candidate (a : Nat) (v : Cell) : (s.storeCell a v).candidate = s.candidate := rfl
@[simp] theorem State.storeCell_scanBase (a : Nat) (v : Cell) : (s.storeCell a v).scanBase = s.scanBase := rfl
@[simp] theorem State.storeCell_cfg (a : Nat) (v : Cell) : (s.storeCell a v).cfg = s.cfg := rfl
@[simp] theorem State.storeCell_lines (a : Nat) (v : Cell) : (s.storeCell a v).lines = s.lines := rfl

@[simp] theorem State.push_x (v : Word) : (s.push v).x = s.x := rfl
@[simp] theorem State.push_pc (v : Word) : (s.push v).pc = s.pc := rfl
@[simp] theorem State.push_mem (v : Word) : (s.push v).mem = s.mem := rfl
@[simp] theorem State.push_stack (v : Word) : (s.push v).stack = s.stack ++ [v] := rfl
@[simp] theorem State.push_inbuf (v : Word) : (s.push v).inbuf = s.inbuf := rfl
@[simp] theorem State.push_output (v : Word) : (s.push v).output = s.output := rfl
@[simp] theorem State.push_status (v : Word) : (s.push v).status = s.status := rfl
@[simp] theorem State.push_cp (v : Word) : (s.push v).cp = s.cp := rfl
@[simp] theorem State.push_calState (v : Word) : (s.push v).calState = s.calState := rfl
@[simp] theorem State.push_candidate (v : Word) : (s.push v).candidate = s.candidate := rfl
@[simp] theorem State.push_scanBase (v : Word) : (s.push v).scanBase = s.scanBase := rfl
@[simp] theorem State.push_cfg (v : Word) : (s.push v).cfg = s.cfg := rfl
@[simp] theorem State.push_lines (v : Word) : (s.push v).lines = s.lines := rfl

@[simp] theorem State.dropTop_x : s.dropTop.x = s.x := rfl
@[simp] theorem State.dropTop_pc : s.dropTop.pc = s.pc := rfl
@[simp] theorem State.dropTop_mem : s.dropTop.mem = s.mem := rfl
@[simp] theorem State.dropTop_stack : s.dropTop.stack = s.stack.dropLast := rfl
@[simp] theorem State.dropTop_inbuf : s.dropTop.inbuf = s.inbuf := rfl
@[simp] theorem State.dropTop_output : s.dropTop.output = s.output := rfl
@[simp] theorem State.dropTop_status : s.dropTop.status = s.status := rfl
@[simp] theorem State.dropTop_cp : s.dropTop.cp = s.cp := rfl
@[simp] theorem State.dropTop_calState : s.dropTop.calState = s.calState := rfl
@[simp] theorem State.dropTop_candidate : s.dropTop.candidate = s.candidate := rfl
@[simp] theorem State.dropTop_scanBase : s.dropTop.scanBase = s.scanBase := rfl
@[simp] theorem State.dropTop_cfg : s.dropTop.cfg = s.cfg := rfl
@[simp] theorem State.dropTop_lines : s.dropTop.lines = s.lines := rfl

@[simp] theorem State.halted_x : s.halted.x = s.x := rfl
@[simp] theorem State.halted_pc : s.halted.pc = s.pc := rfl
@[simp] theorem State.halted_mem : s.halted.mem = s.mem := rfl
@[simp] theorem State.halted_stack : s.halted.stack = s.stack := rfl
@[simp] theorem State.halted_inbuf : s.halted.inbuf = s.inbuf := rfl
@[simp] theorem State.halted_output : s.halted.output = s.output := rfl
@[simp] theorem State.halted_status : s.halted.status = .halted := rfl
@[simp] theorem State.halted_cp : s.halted.cp = s.cp := rfl
@[simp] theorem State.halted_calState : s.halted.calState = s.calState := rfl
@[simp] theorem State.halted_candidate : s.halted.candidate = s.candidate := rfl
@[simp] theorem State.halted_scanBase : s.halted.scanBase = s.scanBase := rfl
@[simp] theorem State.halted_cfg : s.halted.cfg = s.cfg := rfl
@[simp] theorem State.halted_lines : s.halted.lines = s.lines := rfl

@[simp] theorem State.faulted_x (k : Cause) (op : Option Cell) : (s.faulted k op).x = s.x := rfl
@[simp] theorem State.faulted_pc (k : Cause) (op : Option Cell) : (s.faulted k op).pc = s.pc := rfl
@[simp] theorem State.faulted_mem (k : Cause) (op : Option Cell) : (s.faulted k op).mem = s.mem := rfl
@[simp] theorem State.faulted_stack (k : Cause) (op : Option Cell) : (s.faulted k op).stack = s.stack := rfl
@[simp] theorem State.faulted_inbuf (k : Cause) (op : Option Cell) : (s.faulted k op).inbuf = s.inbuf := rfl
@[simp] theorem State.faulted_output (k : Cause) (op : Option Cell) : (s.faulted k op).output = s.output := rfl
@[simp] theorem State.faulted_status (k : Cause) (op : Option Cell) : (s.faulted k op).status = .faulted ⟨k, s.pc, op⟩ := rfl
@[simp] theorem State.faulted_cp (k : Cause) (op : Option Cell) : (s.faulted k op).cp = s.cp := rfl
@[simp] theorem State.faulted_calState (k : Cause) (op : Option Cell) : (s.faulted k op).calState = s.calState := rfl
@[simp] theorem State.faulted_candidate (k : Cause) (op : Option Cell) : (s.faulted k op).candidate = s.candidate := rfl
@[simp] theorem State.faulted_scanBase (k : Cause) (op : Option Cell) : (s.faulted k op).scanBase = s.scanBase := rfl
@[simp] theorem State.faulted_cfg (k : Cause) (op : Option Cell) : (s.faulted k op).cfg = s.cfg := rfl
@[simp] theorem State.faulted_lines (k : Cause) (op : Option Cell) : (s.faulted k op).lines = s.lines := rfl

@[simp] theorem State.writeChar_x (w : Word) : (s.writeChar w).x = s.x := rfl
@[simp] theorem State.writeChar_pc (w : Word) : (s.writeChar w).pc = s.pc := rfl
@[simp] theorem State.writeChar_mem (w : Word) : (s.writeChar w).mem = s.mem := rfl
@[simp] theorem State.writeChar_stack (w : Word) : (s.writeChar w).stack = s.stack := rfl
@[simp] theorem State.writeChar_inbuf (w : Word) : (s.writeChar w).inbuf = s.inbuf := rfl
@[simp] theorem State.writeChar_output (w : Word) : (s.writeChar w).output = s.output ++ [w] := rfl
@[simp] theorem State.writeChar_status (w : Word) : (s.writeChar w).status = s.status := rfl
@[simp] theorem State.writeChar_cp (w : Word) : (s.writeChar w).cp = s.cp := rfl
@[simp] theorem State.writeChar_calState (w : Word) : (s.writeChar w).calState = s.calState := rfl
@[simp] theorem State.writeChar_candidate (w : Word) : (s.writeChar w).candidate = s.candidate := rfl
@[simp] theorem State.writeChar_scanBase (w : Word) : (s.writeChar w).scanBase = s.scanBase := rfl
@[simp] theorem State.writeChar_cfg (w : Word) : (s.writeChar w).cfg = s.cfg := rfl
@[simp] theorem State.writeChar_lines (w : Word) : (s.writeChar w).lines = s.lines := rfl

@[simp] theorem State.answerLine_x (ans : LineAnswer) : (s.answerLine ans).x = s.x := rfl
@[simp] theorem State.answerLine_pc (ans : LineAnswer) : (s.answerLine ans).pc = s.pc := rfl
@[simp] theorem State.answerLine_mem (ans : LineAnswer) : (s.answerLine ans).mem = s.mem := rfl
@[simp] theorem State.answerLine_stack (ans : LineAnswer) : (s.answerLine ans).stack = s.stack := rfl
@[simp] theorem State.answerLine_inbuf (ans : LineAnswer) : (s.answerLine ans).inbuf = s.inbuf := rfl
@[simp] theorem State.answerLine_output (ans : LineAnswer) : (s.answerLine ans).output = s.output := rfl
@[simp] theorem State.answerLine_status (ans : LineAnswer) : (s.answerLine ans).status = s.status := rfl
@[simp] theorem State.answerLine_cp (ans : LineAnswer) : (s.answerLine ans).cp = s.cp := rfl
@[simp] theorem State.answerLine_calState (ans : LineAnswer) : (s.answerLine ans).calState = s.calState := rfl
@[simp] theorem State.answerLine_candidate (ans : LineAnswer) : (s.answerLine ans).candidate = s.candidate := rfl
@[simp] theorem State.answerLine_scanBase (ans : LineAnswer) : (s.answerLine ans).scanBase = s.scanBase := rfl
@[simp] theorem State.answerLine_cfg (ans : LineAnswer) : (s.answerLine ans).cfg = s.cfg := rfl
@[simp] theorem State.answerLine_lines (ans : LineAnswer) : (s.answerLine ans).lines = s.lines ++ [ans] := rfl

@[simp] theorem State.restoreFrom_x (c : Checkpoint) : (s.restoreFrom c).x = c.x := rfl
@[simp] theorem State.restoreFrom_pc (c : Checkpoint) : (s.restoreFrom c).pc = c.pc := rfl
@[simp] theorem State.restoreFrom_mem (c : Checkpoint) : (s.restoreFrom c).mem = c.mem := rfl
@[simp] theorem State.restoreFrom_stack (c : Checkpoint) : (s.restoreFrom c).stack = c.stack := rfl
@[simp] theorem State.restoreFrom_inbuf (c : Checkpoint) : (s.restoreFrom c).inbuf = c.inbuf := rfl
@[simp] theorem State.restoreFrom_output (c : Checkpoint) : (s.restoreFrom c).output = s.output := rfl
@[simp] theorem State.restoreFrom_status (c : Checkpoint) : (s.restoreFrom c).status = s.status := rfl
@[simp] theorem State.restoreFrom_cp (c : Checkpoint) : (s.restoreFrom c).cp = s.cp := rfl
@[simp] theorem State.restoreFrom_calState (c : Checkpoint) : (s.restoreFrom c).calState = s.calState := rfl
@[simp] theorem State.restoreFrom_candidate (c : Checkpoint) : (s.restoreFrom c).candidate = s.candidate := rfl
@[simp] theorem State.restoreFrom_scanBase (c : Checkpoint) : (s.restoreFrom c).scanBase = s.scanBase := rfl
@[simp] theorem State.restoreFrom_cfg (c : Checkpoint) : (s.restoreFrom c).cfg = s.cfg := rfl
@[simp] theorem State.restoreFrom_lines (c : Checkpoint) : (s.restoreFrom c).lines = s.lines := rfl

@[simp] theorem State.accept_x : s.accept.x = s.x := rfl
@[simp] theorem State.accept_pc : s.accept.pc = s.pc := rfl
@[simp] theorem State.accept_mem : s.accept.mem = s.mem := rfl
@[simp] theorem State.accept_stack : s.accept.stack = s.stack := rfl
@[simp] theorem State.accept_inbuf : s.accept.inbuf = s.inbuf := rfl
@[simp] theorem State.accept_output : s.accept.output = s.output := rfl
@[simp] theorem State.accept_status : s.accept.status = s.status := rfl
@[simp] theorem State.accept_cp : s.accept.cp = s.cp := rfl
@[simp] theorem State.accept_calState : s.accept.calState = .accepted := rfl
@[simp] theorem State.accept_candidate : s.accept.candidate = s.candidate := rfl
@[simp] theorem State.accept_scanBase : s.accept.scanBase = s.scanBase := rfl
@[simp] theorem State.accept_cfg : s.accept.cfg = s.cfg := rfl
@[simp] theorem State.accept_lines : s.accept.lines = s.lines := rfl

@[simp] theorem State.exhaust_x : s.exhaust.x = s.x := rfl
@[simp] theorem State.exhaust_pc : s.exhaust.pc = s.pc := rfl
@[simp] theorem State.exhaust_mem : s.exhaust.mem = s.mem := rfl
@[simp] theorem State.exhaust_stack : s.exhaust.stack = s.stack := rfl
@[simp] theorem State.exhaust_inbuf : s.exhaust.inbuf = s.inbuf := rfl
@[simp] theorem State.exhaust_output : s.exhaust.output = s.output := rfl
@[simp] theorem State.exhaust_status : s.exhaust.status = .exhausted := rfl
@[simp] theorem State.exhaust_cp : s.exhaust.cp = s.cp := rfl
@[simp] theorem State.exhaust_calState : s.exhaust.calState = .exhausted := rfl
@[simp] theorem State.exhaust_candidate : s.exhaust.candidate = s.candidate := rfl
@[simp] theorem State.exhaust_scanBase : s.exhaust.scanBase = s.scanBase := rfl
@[simp] theorem State.exhaust_cfg : s.exhaust.cfg = s.cfg := rfl
@[simp] theorem State.exhaust_lines : s.exhaust.lines = s.lines := rfl

@[simp] theorem State.capture_x : s.capture.x = s.x := by unfold State.capture; split <;> rfl
@[simp] theorem State.capture_pc : s.capture.pc = s.pc := by unfold State.capture; split <;> rfl
@[simp] theorem State.capture_mem : s.capture.mem = s.mem := by unfold State.capture; split <;> rfl
@[simp] theorem State.capture_stack : s.capture.stack = s.stack := by unfold State.capture; split <;> rfl
@[simp] theorem State.capture_inbuf : s.capture.inbuf = s.inbuf := by unfold State.capture; split <;> rfl
@[simp] theorem State.capture_output : s.capture.output = s.output := by unfold State.capture; split <;> rfl
@[simp] theorem State.capture_status : s.capture.status = s.status := by unfold State.capture; split <;> rfl
@[simp] theorem State.capture_calState : s.capture.calState = s.calState := by unfold State.capture; split <;> rfl
@[simp] theorem State.capture_candidate : s.capture.candidate = s.candidate := by unfold State.capture; split <;> rfl
@[simp] theorem State.capture_scanBase : s.capture.scanBase = s.scanBase := by unfold State.capture; split <;> rfl
@[simp] theorem State.capture_cfg : s.capture.cfg = s.cfg := by unfold State.capture; split <;> rfl
@[simp] theorem State.capture_lines : s.capture.lines = s.lines := by unfold State.capture; split <;> rfl

theorem State.capture_cp_none (h : s.cp = none) : s.capture.cp = some s.snapshot := by simp [State.capture, h]
theorem State.capture_cp_some (c : Checkpoint) (h : s.cp = some c) : s.capture = s := by simp [State.capture, h]
theorem State.restore_none (h : s.cp = none) : s.restore = s := by simp [State.restore, h]
theorem State.restore_some (c : Checkpoint) (h : s.cp = some c) : s.restore = s.restoreFrom c := by simp [State.restore, h]

@[simp] theorem State.restore_output : s.restore.output = s.output := by unfold State.restore; split <;> rfl
@[simp] theorem State.restore_status : s.restore.status = s.status := by unfold State.restore; split <;> rfl
@[simp] theorem State.restore_cp : s.restore.cp = s.cp := by unfold State.restore; split <;> rfl
@[simp] theorem State.restore_calState : s.restore.calState = s.calState := by unfold State.restore; split <;> rfl
@[simp] theorem State.restore_candidate : s.restore.candidate = s.candidate := by unfold State.restore; split <;> rfl
@[simp] theorem State.restore_scanBase : s.restore.scanBase = s.scanBase := by unfold State.restore; split <;> rfl
@[simp] theorem State.restore_cfg : s.restore.cfg = s.cfg := by unfold State.restore; split <;> rfl
@[simp] theorem State.restore_lines : s.restore.lines = s.lines := by unfold State.restore; split <;> rfl

@[simp] theorem State.arm_x : s.arm.x = s.x.set s.cfg.calReg s.candidate := rfl
@[simp] theorem State.arm_pc : s.arm.pc = s.pc := s.capture_pc
@[simp] theorem State.arm_mem : s.arm.mem = s.mem := s.capture_mem
@[simp] theorem State.arm_stack : s.arm.stack = s.stack := s.capture_stack
@[simp] theorem State.arm_inbuf : s.arm.inbuf = s.inbuf := s.capture_inbuf
@[simp] theorem State.arm_output : s.arm.output = s.output := s.capture_output
@[simp] theorem State.arm_status : s.arm.status = s.status := s.capture_status
@[simp] theorem State.arm_cp : s.arm.cp = s.capture.cp := rfl
@[simp] theorem State.arm_calState : s.arm.calState = .testing := rfl
@[simp] theorem State.arm_candidate : s.arm.candidate = s.candidate := s.capture_candidate
@[simp] theorem State.arm_scanBase : s.arm.scanBase = s.output.length := rfl
@[simp] theorem State.arm_cfg : s.arm.cfg = s.cfg := s.capture_cfg
@[simp] theorem State.arm_lines : s.arm.lines = s.lines := s.capture_lines

@[simp] theorem State.retry_x : s.retry.x = s.restore.x.set s.cfg.calReg (s.candidate + 1#15) := rfl
@[simp] theorem State.retry_pc : s.retry.pc = s.restore.pc := rfl
@[simp] theorem State.retry_mem : s.retry.mem = s.restore.mem := rfl
@[simp] theorem State.retry_stack : s.retry.stack = s.restore.stack := rfl
@[simp] theorem State.retry_inbuf : s.retry.inbuf = s.restore.inbuf := rfl
@[simp] theorem State.retry_output : s.retry.output = s.output := s.restore_output
@[simp] theorem State.retry_status : s.retry.status = s.status := s.restore_status
@[simp] theorem State.retry_cp : s.retry.cp = s.cp := s.restore_cp
@[simp] theorem State.retry_calState : s.retry.calState = s.calState := s.restore_calState
@[simp] theorem State.retry_candidate : s.retry.candidate = s.candidate + 1#15 := rfl
@[simp] theorem State.retry_scanBase : s.retry.scanBase = s.output.length := rfl
@[simp] theorem State.retry_cfg : s.retry.cfg = s.cfg := s.restore_cfg
@[simp] theorem State.retry_lines : s.retry.lines = s.lines := s.restore_lines

end Sys2Proof.Machine
end

