-- ==== Sys2Proof/Laws/Ops.lean ====
section
/-! SUPPORT. One lemma for each shared operation that says everything it can do. -/

namespace Sys2Proof.Machine

theorem raise_eq (k : Cause) (op : Option Cell) (s : State) : raise k op s = .next (s.faulted k op) := rfl

@[simp] theorem resolve_lit (v : Word) (s : State) : resolve (.lit v) s = some v := rfl
@[simp] theorem resolve_reg (r : RegIdx) (s : State) : resolve (.reg r) s = some s.x[r] := rfl
@[simp] theorem resolve_invalid (w : Cell) (s : State) : resolve (.invalid w) s = none := rfl
@[simp] theorem dest_reg (r : RegIdx) : dest (.reg r) = some r := rfl
@[simp] theorem dest_invalid (w : Cell) : dest (.invalid w) = none := rfl

/-- `Denotes` and `resolve` say the same (R66). -/
theorem resolve_eq_some {o : Src} {s : State} {v : Word} : resolve o s = some v ↔ Denotes o s v := by
  cases o <;> simp [Denotes, eq_comm]

theorem resolve_eq_none {o : Src} {s : State} : resolve o s = none ↔ o.legal = false := by
  cases o <;> simp [Src.legal]

theorem dest_eq_some {o : Dst} {r : RegIdx} : dest o = some r ↔ o = .reg r := by
  cases o <;> simp

theorem dest_eq_none {o : Dst} : dest o = none ↔ o.legal = false := by
  cases o <;> simp [Dst.legal]

theorem withValue_of {op : Cell} {o : Src} {s : State} {k : Word → Result} {v : Word}
    (h : Denotes o s v) : withValue op o s k = k v := by
  simp [withValue, resolve_eq_some.2 h]

theorem withValue_invalid {op : Cell} {o : Src} {s : State} {k : Word → Result} (h : o.legal = false) :
    withValue op o s k = .next (s.faulted .invalidOperand (some op)) := by
  simp [withValue, resolve_eq_none.2 h, raise_eq]

theorem withDest_invalid {op : Cell} {o : Dst} {s : State} {k : RegIdx → Result} (h : o.legal = false) :
    withDest op o s k = .next (s.faulted .invalidOperand (some op)) := by
  simp [withDest, dest_eq_none.2 h, raise_eq]

@[simp] theorem withDest_reg {op : Cell} {r : RegIdx} {s : State} {k : RegIdx → Result} :
    withDest op (.reg r) s k = k r := rfl

/-- An operand of mode L is decoded, or the instruction raises InvalidOperand (R94). -/
theorem withValue_cases (op : Cell) (o : Src) (s : State) (k : Word → Result) :
    (∃ v, Denotes o s v ∧ withValue op o s k = k v) ∨
      (o.legal = false ∧ withValue op o s k = .next (s.faulted .invalidOperand (some op))) := by
  cases o with
  | lit v => exact .inl ⟨v, rfl, rfl⟩
  | reg r => exact .inl ⟨s.x[r], rfl, rfl⟩
  | invalid w => exact .inr ⟨rfl, rfl⟩

/-- An operand of mode R is decoded, or the instruction raises InvalidOperand (R94). -/
theorem withDest_cases (op : Cell) (o : Dst) (s : State) (k : RegIdx → Result) :
    (∃ r, o = .reg r ∧ withDest op o s k = k r) ∨
      (o.legal = false ∧ withDest op o s k = .next (s.faulted .invalidOperand (some op))) := by
  cases o with
  | reg r => exact .inl ⟨r, rfl, rfl⟩
  | invalid w => exact .inr ⟨rfl, rfl⟩

theorem word_le (v : Word) : v.toNat ≤ 32767 := by have := v.isLt; omega

/-- A data read at a resolved Word is in range (R45). -/
@[simp] theorem withCell_word {op : Cell} {v : Word} {s : State} {k : Cell → Result} :
    withCell op v.toNat s k = k (s.mem.read v.toNat) := if_pos (word_le v)

/-- A data write at a resolved Word is in range (R45). -/
@[simp] theorem withStore_word {op : Cell} {v : Word} {w : Cell} {s : State} {k : State → Result} :
    withStore op v.toNat w s k = k (s.storeCell v.toNat w) := if_pos (word_le v)

theorem withPop_concat {op : Cell} {s : State} {k : Word → State → Result} {st : List Word} {v : Word}
    (h : s.stack = st ++ [v]) : withPop op s k = k v s.dropTop := by
  simp [withPop, h]

theorem withPop_nil {op : Cell} {s : State} {k : Word → State → Result} (h : s.stack = []) :
    withPop op s k = .next (s.faulted .stackUnderflow (some op)) := by
  simp [withPop, h, raise_eq]

/-- `Pop()` takes the last element, or raises StackUnderflow on the empty stack (R17, R234). -/
theorem withPop_cases (op : Cell) (s : State) (k : Word → State → Result) :
    (∃ st v, s.stack = st ++ [v] ∧ withPop op s k = k v s.dropTop) ∨
      (s.stack = [] ∧ withPop op s k = .next (s.faulted .stackUnderflow (some op))) := by
  rcases List.eq_nil_or_concat s.stack with h | ⟨st, v, h⟩
  · exact .inr ⟨h, withPop_nil h⟩
  · rw [List.concat_eq_append] at h
    exact .inl ⟨st, v, h, withPop_concat h⟩

theorem unary_of {op : Cell} {f : Word → Word} {r : RegIdx} {b : Src} {s : State} {v : Word}
    (h : Denotes b s v) : unary op f (.reg r) b s = .next ((s.writeReg r (f v)).advance 2) := by
  simp [unary, withValue_of h]

theorem binary_of {op : Cell} {f : Word → Word → Word} {r : RegIdx} {b c : Src} {s : State} {v w : Word}
    (hb : Denotes b s v) (hc : Denotes c s w) :
    binary op f (.reg r) b c s = .next ((s.writeReg r (f v w)).advance 3) := by
  simp [binary, withValue_of hb, withValue_of hc]

theorem unary_cases (op : Cell) (f : Word → Word) (a : Dst) (b : Src) (s : State) :
    (∃ r v, a = .reg r ∧ Denotes b s v ∧ unary op f a b s = .next ((s.writeReg r (f v)).advance 2)) ∨
      ((a.legal = false ∨ b.legal = false) ∧
        unary op f a b s = .next (s.faulted .invalidOperand (some op))) := by
  unfold unary
  rcases withDest_cases op a s _ with ⟨r, ha, h1⟩ | ⟨ha, h1⟩ <;> rw [h1]
  · rcases withValue_cases op b s _ with ⟨v, hb, h2⟩ | ⟨hb, h2⟩ <;> rw [h2]
    · exact .inl ⟨r, v, ha, hb, rfl⟩
    · exact .inr ⟨.inr hb, rfl⟩
  · exact .inr ⟨.inl ha, rfl⟩

theorem binary_cases (op : Cell) (f : Word → Word → Word) (a : Dst) (b c : Src) (s : State) :
    (∃ r v w, a = .reg r ∧ Denotes b s v ∧ Denotes c s w ∧
        binary op f a b c s = .next ((s.writeReg r (f v w)).advance 3)) ∨
      ((a.legal = false ∨ b.legal = false ∨ c.legal = false) ∧
        binary op f a b c s = .next (s.faulted .invalidOperand (some op))) := by
  unfold binary
  rcases withDest_cases op a s _ with ⟨r, ha, h1⟩ | ⟨ha, h1⟩ <;> rw [h1]
  · rcases withValue_cases op b s _ with ⟨v, hb, h2⟩ | ⟨hb, h2⟩ <;> rw [h2]
    · rcases withValue_cases op c s _ with ⟨w, hc, h3⟩ | ⟨hc, h3⟩ <;> rw [h3]
      · exact .inl ⟨r, v, w, ha, hb, hc, rfl⟩
      · exact .inr ⟨.inr (.inr hc), rfl⟩
    · exact .inr ⟨.inr (.inl hb), rfl⟩
  · exact .inr ⟨.inl ha, rfl⟩

/-- `read_char()` gives the head of `inbuf`, or the head of the line just supplied, or finds the line
source without a line, or has no answer to go on with (R177, R178, R101). -/
theorem readChar_cases (s : State) :
    (∃ c rest, s.inbuf = c :: rest ∧ readChar s = .char c { s with inbuf := rest }) ∨
      (∃ c rest more, s.inbuf = [] ∧ s.lines = .line (c :: rest) :: more ∧
        readChar s = .char c { s with inbuf := rest, lines := more }) ∨
      (∃ ans more, s.inbuf = [] ∧ s.lines = ans :: more ∧ (ans = .noLine ∨ ans = .line []) ∧
        readChar s = .exhausted) ∨
      (s.inbuf = [] ∧ s.lines = [] ∧ readChar s = .waiting) := by
  unfold readChar
  split
  · exact .inl ⟨_, _, ‹_›, rfl⟩
  · split
    · exact .inr (.inr (.inr ⟨‹_›, ‹_›, rfl⟩))
    · exact .inr (.inr (.inl ⟨_, _, ‹_›, ‹_›, .inl rfl, rfl⟩))
    · exact .inr (.inr (.inl ⟨_, _, ‹_›, ‹_›, .inr rfl, rfl⟩))
    · exact .inr (.inl ⟨_, _, _, ‹_›, ‹_›, rfl⟩)

end Sys2Proof.Machine
end

