-- ==== Sys2Proof/Laws/Exec.lean ====
section
/-! SUPPORT. What `exec` can answer, said once for every instruction. -/

namespace Sys2Proof.Machine

/-- The instruction completes at `s` in the state `t`: its own effect, with legal operands and no fault. -/
def CommitsTo (i : Instr) (s t : State) : Prop :=
  match i with
  | .halt => t = s.halted.advance 0
  | .set a b => ∃ r v, a = .reg r ∧ Denotes b s v ∧ t = (s.writeReg r v).advance 2
  | .push a => ∃ v, Denotes a s v ∧ t = (s.push v).advance 1
  | .pop a => ∃ r st v, a = .reg r ∧ s.stack = st ++ [v] ∧ t = (s.dropTop.writeReg r v).advance 1
  | .eq a b c => ∃ r v w, a = .reg r ∧ Denotes b s v ∧ Denotes c s w ∧
      t = (s.writeReg r (eqWord v w)).advance 3
  | .gt a b c => ∃ r v w, a = .reg r ∧ Denotes b s v ∧ Denotes c s w ∧
      t = (s.writeReg r (gtWord v w)).advance 3
  | .jmp a => ∃ v, Denotes a s v ∧ t = s.jump v
  | .jt a b => ∃ v w, Denotes a s v ∧ Denotes b s w ∧ t = if nonzero v then s.jump w else s.advance 2
  | .jf a b => ∃ v w, Denotes a s v ∧ Denotes b s w ∧ t = if nonzero v then s.advance 2 else s.jump w
  | .add a b c => ∃ r v w, a = .reg r ∧ Denotes b s v ∧ Denotes c s w ∧
      t = (s.writeReg r (addWord v w)).advance 3
  | .mult a b c => ∃ r v w, a = .reg r ∧ Denotes b s v ∧ Denotes c s w ∧
      t = (s.writeReg r (multWord v w)).advance 3
  | .mod a b c => ∃ r v w, a = .reg r ∧ Denotes b s v ∧ Denotes c s w ∧ w ≠ 0#15 ∧
      t = (s.writeReg r (modWord v w)).advance 3
  | .and a b c => ∃ r v w, a = .reg r ∧ Denotes b s v ∧ Denotes c s w ∧
      t = (s.writeReg r (andWord v w)).advance 3
  | .or a b c => ∃ r v w, a = .reg r ∧ Denotes b s v ∧ Denotes c s w ∧
      t = (s.writeReg r (orWord v w)).advance 3
  | .not a b => ∃ r v, a = .reg r ∧ Denotes b s v ∧ t = (s.writeReg r (notWord v)).advance 2
  | .rmem a b => ∃ r v, a = .reg r ∧ Denotes b s v ∧ (s.mem.read v.toNat).toNat ≤ 32767 ∧
      t = (s.writeReg r ((s.mem.read v.toNat).setWidth 15)).advance 2
  | .wmem a b => ∃ v w, Denotes a s v ∧ Denotes b s w ∧
      t = (s.storeCell v.toNat (w.setWidth 16)).advance 2
  | .call a => ∃ v, Denotes a s v ∧ s.next 1 ≤ 32767 ∧
      t = (s.push (BitVec.ofNat 15 (s.next 1))).jump v
  | .ret => ∃ st v, s.stack = st ++ [v] ∧ t = s.dropTop.jump v
  | .out a => ∃ v, Denotes a s v ∧ t = (s.writeChar v).advance 1
  | .inp a => ∃ r c u, a = .reg r ∧ readChar s = .char c u ∧ t = (u.writeReg r c).advance 1
  | .noop => t = s.advance 0

/-- An instruction takes a fault, or completes, or is an `in` that waits for a line. -/
theorem exec_cases (i : Instr) (s : State) :
    (∃ k, exec i s = .next (s.faulted k (some i.opcode))) ∨
      (∃ t, CommitsTo i s t ∧ exec i s = .next t) ∨
      (∃ r, i = .inp (.reg r) ∧ s.inbuf = [] ∧ s.lines = [] ∧ exec i s = .fault .awaitingLine) := by
  have bin : ∀ (op : Cell) (f : Word → Word → Word) (a : Dst) (b c : Src),
      (∃ k, binary op f a b c s = .next (s.faulted k (some op))) ∨
      (∃ t, (∃ r v w, a = .reg r ∧ Denotes b s v ∧ Denotes c s w ∧
        t = (s.writeReg r (f v w)).advance 3) ∧ binary op f a b c s = .next t) := by
    intro op f a b c
    rcases binary_cases op f a b c s with ⟨r, v, w, h1, h2, h3, h⟩ | ⟨-, h⟩
    · exact .inr ⟨_, ⟨r, v, w, h1, h2, h3, rfl⟩, h⟩
    · exact .inl ⟨_, h⟩
  have un : ∀ (op : Cell) (f : Word → Word) (a : Dst) (b : Src),
      (∃ k, unary op f a b s = .next (s.faulted k (some op))) ∨
      (∃ t, (∃ r v, a = .reg r ∧ Denotes b s v ∧ t = (s.writeReg r (f v)).advance 2) ∧
        unary op f a b s = .next t) := by
    intro op f a b
    rcases unary_cases op f a b s with ⟨r, v, h1, h2, h⟩ | ⟨-, h⟩
    · exact .inr ⟨_, ⟨r, v, h1, h2, rfl⟩, h⟩
    · exact .inl ⟨_, h⟩
  have keep : ∀ {P Q R : Prop}, P ∨ Q → P ∨ Q ∨ R := fun h => h.elim .inl fun q => .inr (.inl q)
  cases i with
  | halt => exact .inr (.inl ⟨_, rfl, rfl⟩)
  | set a b => exact keep (un 1#16 (fun v => v) a b)
  | push a =>
    rcases withValue_cases 2#16 a s (fun v => .next ((s.push v).advance 1)) with ⟨v, h1, h⟩ | ⟨-, h⟩
    · exact .inr (.inl ⟨_, ⟨v, h1, rfl⟩, h⟩)
    · exact .inl ⟨_, h⟩
  | pop a =>
    rcases withDest_cases 3#16 a s (fun r => withPop 3#16 s fun v t => .next ((t.writeReg r v).advance 1))
      with ⟨r, h1, h⟩ | ⟨-, h⟩
    · rcases withPop_cases 3#16 s (fun v t => .next ((t.writeReg r v).advance 1))
        with ⟨st, v, h2, h'⟩ | ⟨-, h'⟩
      · exact .inr (.inl ⟨_, ⟨r, st, v, h1, h2, rfl⟩, h.trans h'⟩)
      · exact .inl ⟨_, h.trans h'⟩
    · exact .inl ⟨_, h⟩
  | eq a b c => exact keep (bin 4#16 eqWord a b c)
  | gt a b c => exact keep (bin 5#16 gtWord a b c)
  | jmp a =>
    rcases withValue_cases 6#16 a s (fun t => .next (s.jump t)) with ⟨v, h1, h⟩ | ⟨-, h⟩
    · exact .inr (.inl ⟨_, ⟨v, h1, rfl⟩, h⟩)
    · exact .inl ⟨_, h⟩
  | jt a b =>
    show (∃ k, execJt a b s = _) ∨ (∃ t, _ ∧ execJt a b s = _) ∨ _
    unfold execJt
    rcases withValue_cases 7#16 a s _ with ⟨v, h1, h⟩ | ⟨-, h⟩ <;> rw [h]
    · rcases withValue_cases 7#16 b s _ with ⟨w, h2, h'⟩ | ⟨-, h'⟩ <;> rw [h']
      · exact .inr (.inl ⟨_, ⟨v, w, h1, h2, rfl⟩, rfl⟩)
      · exact .inl ⟨_, rfl⟩
    · exact .inl ⟨_, rfl⟩
  | jf a b =>
    show (∃ k, execJf a b s = _) ∨ (∃ t, _ ∧ execJf a b s = _) ∨ _
    unfold execJf
    rcases withValue_cases 8#16 a s _ with ⟨v, h1, h⟩ | ⟨-, h⟩ <;> rw [h]
    · rcases withValue_cases 8#16 b s _ with ⟨w, h2, h'⟩ | ⟨-, h'⟩ <;> rw [h']
      · exact .inr (.inl ⟨_, ⟨v, w, h1, h2, rfl⟩, rfl⟩)
      · exact .inl ⟨_, rfl⟩
    · exact .inl ⟨_, rfl⟩
  | add a b c => exact keep (bin 9#16 addWord a b c)
  | mult a b c => exact keep (bin 10#16 multWord a b c)
  | mod a b c =>
    show (∃ k, execMod a b c s = _) ∨ (∃ t, _ ∧ execMod a b c s = _) ∨ _
    unfold execMod
    rcases withDest_cases 11#16 a s _ with ⟨r, h1, h⟩ | ⟨-, h⟩ <;> rw [h]
    · rcases withValue_cases 11#16 b s _ with ⟨v, h2, h⟩ | ⟨-, h⟩ <;> rw [h]
      · rcases withValue_cases 11#16 c s _ with ⟨w, h3, h⟩ | ⟨-, h⟩ <;> rw [h]
        · by_cases hw : w = 0#15
          · exact .inl ⟨_, if_pos hw⟩
          · exact .inr (.inl ⟨_, ⟨r, v, w, h1, h2, h3, hw, rfl⟩, if_neg hw⟩)
        · exact .inl ⟨_, rfl⟩
      · exact .inl ⟨_, rfl⟩
    · exact .inl ⟨_, rfl⟩
  | and a b c => exact keep (bin 12#16 andWord a b c)
  | or a b c => exact keep (bin 13#16 orWord a b c)
  | not a b => exact keep (un 14#16 notWord a b)
  | rmem a b =>
    show (∃ k, execRmem a b s = _) ∨ (∃ t, _ ∧ execRmem a b s = _) ∨ _
    unfold execRmem
    rcases withDest_cases 15#16 a s _ with ⟨r, h1, h⟩ | ⟨-, h⟩ <;> rw [h]
    · rcases withValue_cases 15#16 b s _ with ⟨v, h2, h⟩ | ⟨-, h⟩ <;> rw [h]
      · rw [withCell_word]
        by_cases hw : (s.mem.read v.toNat).toNat > 32767
        · exact .inl ⟨_, if_pos hw⟩
        · exact .inr (.inl ⟨_, ⟨r, v, h1, h2, Nat.le_of_not_gt hw, rfl⟩, if_neg hw⟩)
      · exact .inl ⟨_, rfl⟩
    · exact .inl ⟨_, rfl⟩
  | wmem a b =>
    show (∃ k, execWmem a b s = _) ∨ (∃ t, _ ∧ execWmem a b s = _) ∨ _
    unfold execWmem
    rcases withValue_cases 16#16 a s _ with ⟨v, h1, h⟩ | ⟨-, h⟩ <;> rw [h]
    · rcases withValue_cases 16#16 b s _ with ⟨w, h2, h'⟩ | ⟨-, h'⟩ <;> rw [h']
      · rw [withStore_word]
        exact .inr (.inl ⟨_, ⟨v, w, h1, h2, rfl⟩, rfl⟩)
      · exact .inl ⟨_, rfl⟩
    · exact .inl ⟨_, rfl⟩
  | call a =>
    show (∃ k, execCall a s = _) ∨ (∃ t, _ ∧ execCall a s = _) ∨ _
    unfold execCall
    rcases withValue_cases 17#16 a s _ with ⟨v, h1, h⟩ | ⟨-, h⟩ <;> rw [h]
    · by_cases hw : s.next 1 > 32767
      · exact .inl ⟨_, if_pos hw⟩
      · exact .inr (.inl ⟨_, ⟨v, h1, Nat.le_of_not_gt hw, rfl⟩, if_neg hw⟩)
    · exact .inl ⟨_, rfl⟩
  | ret =>
    rcases withPop_cases 18#16 s (fun t u => .next (u.jump t)) with ⟨st, v, h1, h⟩ | ⟨-, h⟩
    · exact .inr (.inl ⟨_, ⟨st, v, h1, rfl⟩, h⟩)
    · exact .inl ⟨_, h⟩
  | out a =>
    rcases withValue_cases 19#16 a s (fun c => .next ((s.writeChar c).advance 1)) with ⟨v, h1, h⟩ | ⟨-, h⟩
    · exact .inr (.inl ⟨_, ⟨v, h1, rfl⟩, h⟩)
    · exact .inl ⟨_, h⟩
  | inp a =>
    show (∃ k, execIn a s = _) ∨ (∃ t, _ ∧ execIn a s = _) ∨ _
    unfold execIn
    rcases withDest_cases 20#16 a s _ with ⟨r, h1, h⟩ | ⟨-, h⟩ <;> rw [h]
    · rcases readChar_cases s with ⟨c, rest, -, hr⟩ | ⟨c, rest, more, -, -, hr⟩ | ⟨ans, more, -, -, -, hr⟩ |
        ⟨hi, hl, hr⟩
      · exact .inr (.inl ⟨_, ⟨r, c, _, h1, hr, rfl⟩, by rw [hr]⟩)
      · exact .inr (.inl ⟨_, ⟨r, c, _, h1, hr, rfl⟩, by rw [hr]⟩)
      · exact .inl ⟨.inputExhausted, by rw [hr]; rfl⟩
      · exact .inr (.inr ⟨r, by rw [h1], hi, hl, h.trans (by rw [hr])⟩)
    · exact .inl ⟨_, rfl⟩
  | noop => exact .inr (.inl ⟨_, rfl, rfl⟩)

end Sys2Proof.Machine
end

