-- ==== Sys2Proof/Laws/Step.lean ====
section
/-! SUPPORT. What a step can answer, said once: every whole-machine rule is read off these lemmas. -/

namespace Sys2Proof.Machine

/-- What the controller can do at a boundary (R203): nothing, arm, accept, exhaust or retry. -/
theorem controllerBoundary_cases (s : State) :
    controllerBoundary s = s ∨
      (s.calState = .idle ∧ endsWith s.cfg.armStr 0 s.output = true ∧ s.x[s.cfg.calReg] = 0#15 ∧
        controllerBoundary s = s.arm) ∨
      (s.calState = .testing ∧ endsWith s.cfg.accStr s.scanBase s.output = true ∧
        controllerBoundary s = s.accept) ∨
      (s.calState = .testing ∧ endsWith s.cfg.accStr s.scanBase s.output = false ∧
        endsWith s.cfg.rejStr s.scanBase s.output = true ∧ s.candidate = s.cfg.candLast ∧
        controllerBoundary s = s.exhaust) ∨
      (s.calState = .testing ∧ endsWith s.cfg.accStr s.scanBase s.output = false ∧
        endsWith s.cfg.rejStr s.scanBase s.output = true ∧ s.candidate ≠ s.cfg.candLast ∧
        controllerBoundary s = s.retry) := by
  unfold controllerBoundary
  split
  · split
    · rename_i h
      simp only [Bool.and_eq_true, beq_iff_eq] at h
      exact .inr (.inl ⟨‹_›, h.1, h.2, rfl⟩)
    · exact .inl rfl
  · split
    · exact .inr (.inr (.inl ⟨‹_›, ‹_›, rfl⟩))
    · rename_i hacc
      split
      · split
        · exact .inr (.inr (.inr (.inl ⟨‹_›, by simpa using hacc, ‹_›, ‹_›, rfl⟩)))
        · exact .inr (.inr (.inr (.inr ⟨‹_›, by simpa using hacc, ‹_›, ‹_›, rfl⟩)))
      · exact .inl rfl
  · exact .inl rfl
  · exact .inl rfl
  · exact .inl rfl

theorem opcode_eq_out {i : Instr} : i.opcode = 19#16 ↔ ∃ a, i = .out a := by
  cases i <;> simp [Instr.opcode]

/-- The boundary action does nothing but after an `out` that has left `status` Running, with CAL_ENABLE
true (R97). -/
theorem boundaryAction_cases (i : Instr) (t : State) :
    boundaryAction i t = t ∨
      (∃ a, i = .out a ∧ t.status = .running ∧ t.cfg.calEnable = true ∧
        boundaryAction i t = controllerBoundary t) := by
  unfold boundaryAction
  split
  · rename_i h
    obtain ⟨a, ha⟩ := opcode_eq_out.1 h.1
    exact .inr ⟨a, ha, h.2.1, h.2.2, rfl⟩
  · exact .inl rfl

theorem boundaryAction_faulted (i : Instr) (s : State) (k : Cause) (op : Option Cell) :
    boundaryAction i (s.faulted k op) = s.faulted k op := by
  simp [boundaryAction]

theorem step_running {s : State} (h : s.status = .running) :
    step s = match fetch s with
      | .ok i => afterExec i (exec i s)
      | .error e => raiseFetch e s := by
  cases s
  cases h
  rfl

theorem step_not_running {s : State} (h : s.status ≠ .running) : step s = .fault .notRunning := by
  unfold step
  split <;> first | rfl | exact absurd ‹_› h

theorem raiseFetch_cases (e : DecodeError) (s : State) :
    ∃ k op, raiseFetch e s = .next (s.faulted k op) := by
  cases e <;> exact ⟨_, _, rfl⟩

/-- A step answers the state after a fault, or the state after an instruction's own effect and the
boundary action, or stops because the machine is not running or waits for a line. -/
theorem step_cases (s : State) :
    (s.status ≠ .running ∧ step s = .fault .notRunning) ∨
      (s.status = .running ∧ ∃ k op, step s = .next (s.faulted k op)) ∨
      (s.status = .running ∧ ∃ i t, fetch s = .ok i ∧ CommitsTo i s t ∧
        step s = .next (boundaryAction i t)) ∨
      (s.status = .running ∧ ∃ r, fetch s = .ok (.inp (.reg r)) ∧ s.inbuf = [] ∧ s.lines = [] ∧
        step s = .fault .awaitingLine) := by
  by_cases hs : s.status = .running
  · rw [step_running hs]
    cases hf : fetch s with
    | error e =>
      obtain ⟨k, op, h⟩ := raiseFetch_cases e s
      exact .inr (.inl ⟨hs, k, op, h⟩)
    | ok i =>
      rcases exec_cases i s with ⟨k, h⟩ | ⟨t, hc, h⟩ | ⟨r, rfl, hi, hl, h⟩
      · refine .inr (.inl ⟨hs, k, some i.opcode, ?_⟩)
        simp only [h, afterExec, boundaryAction_faulted]
      · exact .inr (.inr (.inl ⟨hs, i, t, rfl, hc, by simp only [h, afterExec]⟩))
      · exact .inr (.inr (.inr ⟨hs, r, rfl, hi, hl, by simp only [h, afterExec]⟩))
  · exact .inl ⟨hs, step_not_running hs⟩

/-- A step that answers a next state was taken from Running, and took a fault or completed. -/
theorem step_next_cases {s s' : State} (h : step s = .next s') :
    s.status = .running ∧ ((∃ k op, s' = s.faulted k op) ∨
      ∃ i t, fetch s = .ok i ∧ CommitsTo i s t ∧ s' = boundaryAction i t) := by
  rcases step_cases s with ⟨-, h'⟩ | ⟨hs, k, op, h'⟩ | ⟨hs, i, t, hf, hc, h'⟩ | ⟨-, -, -, -, -, h'⟩ <;>
    rw [h] at h'
  · cases h'
  · exact ⟨hs, .inl ⟨k, op, by simpa using h'⟩⟩
  · exact ⟨hs, .inr ⟨i, t, hf, hc, by simpa using h'⟩⟩
  · cases h'

end Sys2Proof.Machine
end

