-- ==== Sys2Proof/Laws/Controller.lean ====
section
/-! SUPPORT. The laws of string matching (R210), and of what a fetch reads. -/

namespace Sys2Proof.Machine

/-- `ends_with(P, base)` holds exactly when P has just been completed at or after `base` (R210). -/
theorem endsWith_iff {p : List Word} {base : Nat} {out : List Word} :
    endsWith p base out = true ↔ CompletedAt p base out := by
  simp only [endsWith, CompletedAt, Bool.and_eq_true, decide_eq_true_eq, beq_iff_eq]
  constructor
  · rintro ⟨h, hp⟩
    refine ⟨out.take (out.length - p.length), ?_, ?_⟩
    · conv_lhs => rw [← List.take_append_drop (out.length - p.length) out, hp]
    · rw [List.length_take]; omega
  · rintro ⟨before, rfl, hb⟩
    simp only [List.length_append, Nat.add_sub_cancel, List.drop_left, and_true]
    omega

theorem endsWith_false_iff {p : List Word} {base : Nat} {out : List Word} :
    endsWith p base out = false ↔ ¬ CompletedAt p base out := by
  rw [← endsWith_iff, Bool.not_eq_true]

/-- A fetched instruction's opcode is the cell at `pc`, which is an address (R92). -/
theorem opcode_of_fetch {s : State} {i : Instr} (h : fetch s = .ok i) :
    i.opcode = opcodeCell s ∧ s.pc.toNat ≤ 32767 := by
  unfold fetch at h
  rw [Memory.window_succ] at h
  by_cases hpc : s.pc.toNat ≤ 32767
  · rw [if_pos hpc] at h
    split at h
    · rename_i j rest hd
      cases h
      exact ⟨opcode_of_decode hd, hpc⟩
    · cases h
  · rw [if_neg hpc] at h
    simp [decode] at h

end Sys2Proof.Machine
end

