-- ==== Sys2Proof/Laws/Frames.lean ====
section
/-! SUPPORT. What an instruction that completes, and the boundary action after it, leave of each part of the
state: one lemma per part, read off `CommitsTo` and the cases of the controller. -/

namespace Sys2Proof.Machine

/-- Taking a character changes `inbuf`, or refills it from the first answer; nothing else (R177). -/
theorem readChar_char {s u : State} {c : Word} (h : readChar s = .char c u) :
    u = { s with inbuf := u.inbuf, lines := u.lines } ∧
      (s.inbuf = c :: u.inbuf ∧ u.lines = s.lines ∨
        s.inbuf = [] ∧ s.lines = .line (c :: u.inbuf) :: u.lines) := by
  rcases readChar_cases s with ⟨c', rest, hi, h'⟩ | ⟨c', rest, more, hi, hl, h'⟩ | ⟨ans, more, -, -, -, h'⟩ |
    ⟨-, -, h'⟩ <;> rw [h] at h' <;> cases h'
  · exact ⟨rfl, .inl ⟨hi, rfl⟩⟩
  · exact ⟨rfl, .inr ⟨hi, hl⟩⟩

/-- No instruction touches the checkpoint, the controller or the configuration (R27). -/
theorem commits_controller {i : Instr} {s t : State} (h : CommitsTo i s t) :
    t.cp = s.cp ∧ t.calState = s.calState ∧ t.candidate = s.candidate ∧ t.scanBase = s.scanBase ∧
      t.cfg = s.cfg := by
  cases i with
  | inp a => obtain ⟨r, c, u, -, hr, rfl⟩ := h; rw [(readChar_char hr).1]; simp
  | jt a b | jf a b => obtain ⟨v, w, -, -, rfl⟩ := h; split <;> simp
  | noop | halt => cases h; simp
  | set _ _ | not _ _ => obtain ⟨r, v, rfl, -, rfl⟩ := h; simp
  | push _ | jmp _ | out _ => obtain ⟨v, -, rfl⟩ := h; simp
  | pop _ => obtain ⟨r, st, v, rfl, -, rfl⟩ := h; simp
  | call _ => obtain ⟨v, -, -, rfl⟩ := h; simp
  | wmem _ _ => obtain ⟨v, w, -, -, rfl⟩ := h; simp
  | ret => obtain ⟨st, v, -, rfl⟩ := h; simp
  | rmem _ _ => obtain ⟨r, v, rfl, -, -, rfl⟩ := h; simp
  | mod _ _ _ => obtain ⟨r, v, w, rfl, -, -, -, rfl⟩ := h; simp
  | eq _ _ _ | gt _ _ _ | add _ _ _ | mult _ _ _ | and _ _ _ | or _ _ _ =>
    obtain ⟨r, v, w, rfl, -, -, rfl⟩ := h; simp

/-- Only `halt` changes `status` (R96). -/
theorem commits_status {i : Instr} {s t : State} (h : CommitsTo i s t) :
    t.status = s.status ∨ (i = .halt ∧ t.status = .halted) := by
  cases i with
  | halt => cases h; exact .inr ⟨rfl, rfl⟩
  | inp a => obtain ⟨r, c, u, -, hr, rfl⟩ := h; rw [(readChar_char hr).1]; simp
  | jt a b | jf a b => obtain ⟨v, w, -, -, rfl⟩ := h; left; split <;> simp
  | noop => cases h; simp
  | set _ _ | not _ _ => obtain ⟨r, v, rfl, -, rfl⟩ := h; simp
  | push _ | jmp _ | out _ => obtain ⟨v, -, rfl⟩ := h; simp
  | pop _ => obtain ⟨r, st, v, rfl, -, rfl⟩ := h; simp
  | call _ => obtain ⟨v, -, -, rfl⟩ := h; simp
  | wmem _ _ => obtain ⟨v, w, -, -, rfl⟩ := h; simp
  | ret => obtain ⟨st, v, -, rfl⟩ := h; simp
  | rmem _ _ => obtain ⟨r, v, rfl, -, -, rfl⟩ := h; simp
  | mod _ _ _ => obtain ⟨r, v, w, rfl, -, -, -, rfl⟩ := h; simp
  | eq _ _ _ | gt _ _ _ | add _ _ _ | mult _ _ _ | and _ _ _ | or _ _ _ =>
    obtain ⟨r, v, w, rfl, -, -, rfl⟩ := h; simp

/-- Only `out` appends to `output`, one code (R19). -/
theorem commits_output {i : Instr} {s t : State} (h : CommitsTo i s t) :
    t.output = s.output ∨ ∃ a c, i = .out a ∧ t.output = s.output ++ [c] := by
  cases i with
  | out a => obtain ⟨v, -, rfl⟩ := h; exact .inr ⟨a, v, rfl, rfl⟩
  | inp a => obtain ⟨r, c, u, -, hr, rfl⟩ := h; rw [(readChar_char hr).1]; simp
  | jt a b | jf a b => obtain ⟨v, w, -, -, rfl⟩ := h; left; split <;> simp
  | noop | halt => cases h; simp
  | set _ _ | not _ _ => obtain ⟨r, v, rfl, -, rfl⟩ := h; simp
  | push _ | jmp _ => obtain ⟨v, -, rfl⟩ := h; simp
  | pop _ => obtain ⟨r, st, v, rfl, -, rfl⟩ := h; simp
  | call _ => obtain ⟨v, -, -, rfl⟩ := h; simp
  | wmem _ _ => obtain ⟨v, w, -, -, rfl⟩ := h; simp
  | ret => obtain ⟨st, v, -, rfl⟩ := h; simp
  | rmem _ _ => obtain ⟨r, v, rfl, -, -, rfl⟩ := h; simp
  | mod _ _ _ => obtain ⟨r, v, w, rfl, -, -, -, rfl⟩ := h; simp
  | eq _ _ _ | gt _ _ _ | add _ _ _ | mult _ _ _ | and _ _ _ | or _ _ _ =>
    obtain ⟨r, v, w, rfl, -, -, rfl⟩ := h; simp

/-- The only register an instruction writes is its destination (R11). -/
theorem commits_x {i : Instr} {s t : State} (h : CommitsTo i s t) :
    t.x = s.x ∨ ∃ r v, i.dsts = [.reg r] ∧ t.x = s.x.set r v := by
  cases i with
  | inp a =>
    obtain ⟨r, c, u, rfl, hr, rfl⟩ := h
    rw [(readChar_char hr).1]
    exact .inr ⟨r, c, rfl, rfl⟩
  | jt a b | jf a b => obtain ⟨v, w, -, -, rfl⟩ := h; left; split <;> simp
  | noop | halt => cases h; simp
  | set _ _ | not _ _ => obtain ⟨r, v, rfl, -, rfl⟩ := h; exact .inr ⟨r, _, rfl, rfl⟩
  | push _ | jmp _ | out _ => obtain ⟨v, -, rfl⟩ := h; simp
  | pop _ => obtain ⟨r, st, v, rfl, -, rfl⟩ := h; exact .inr ⟨r, _, rfl, rfl⟩
  | call _ => obtain ⟨v, -, -, rfl⟩ := h; simp
  | wmem _ _ => obtain ⟨v, w, -, -, rfl⟩ := h; simp
  | ret => obtain ⟨st, v, -, rfl⟩ := h; simp
  | rmem _ _ => obtain ⟨r, v, rfl, -, -, rfl⟩ := h; exact .inr ⟨r, _, rfl, rfl⟩
  | mod _ _ _ => obtain ⟨r, v, w, rfl, -, -, -, rfl⟩ := h; exact .inr ⟨r, _, rfl, rfl⟩
  | eq _ _ _ | gt _ _ _ | add _ _ _ | mult _ _ _ | and _ _ _ | or _ _ _ =>
    obtain ⟨r, v, w, rfl, -, -, rfl⟩ := h; exact .inr ⟨r, _, rfl, rfl⟩

/-- The only memory an instruction writes is the cell `wmem` stores to (R43). -/
theorem commits_mem {i : Instr} {s t : State} (h : CommitsTo i s t) :
    t.mem = s.mem ∨ ∃ a b, ∃ v w : Word, i = .wmem a b ∧ Denotes a s v ∧ Denotes b s w ∧
      t.mem = s.mem.write v.toNat (w.setWidth 16) := by
  cases i with
  | inp a => obtain ⟨r, c, u, -, hr, rfl⟩ := h; rw [(readChar_char hr).1]; simp
  | jt a b | jf a b => obtain ⟨v, w, -, -, rfl⟩ := h; left; split <;> simp
  | noop | halt => cases h; simp
  | set _ _ | not _ _ => obtain ⟨r, v, rfl, -, rfl⟩ := h; simp
  | push _ | jmp _ | out _ => obtain ⟨v, -, rfl⟩ := h; simp
  | pop _ => obtain ⟨r, st, v, rfl, -, rfl⟩ := h; simp
  | call _ => obtain ⟨v, -, -, rfl⟩ := h; simp
  | wmem a b => obtain ⟨v, w, ha, hb, rfl⟩ := h; exact .inr ⟨a, b, v, w, rfl, ha, hb, rfl⟩
  | ret => obtain ⟨st, v, -, rfl⟩ := h; simp
  | rmem _ _ => obtain ⟨r, v, rfl, -, -, rfl⟩ := h; simp
  | mod _ _ _ => obtain ⟨r, v, w, rfl, -, -, -, rfl⟩ := h; simp
  | eq _ _ _ | gt _ _ _ | add _ _ _ | mult _ _ _ | and _ _ _ | or _ _ _ =>
    obtain ⟨r, v, w, rfl, -, -, rfl⟩ := h; simp

/-- An instruction appends one Word to the stack, removes its last, or leaves it (R17). -/
theorem commits_stack {i : Instr} {s t : State} (h : CommitsTo i s t) :
    t.stack = s.stack ∨
      ((i.opcode = 2#16 ∨ i.opcode = 17#16) ∧ ∃ v, t.stack = s.stack ++ [v]) ∨
      ((i.opcode = 3#16 ∨ i.opcode = 18#16) ∧ ∃ v, s.stack = t.stack ++ [v]) := by
  cases i with
  | inp a => obtain ⟨r, c, u, -, hr, rfl⟩ := h; rw [(readChar_char hr).1]; simp
  | jt a b | jf a b => obtain ⟨v, w, -, -, rfl⟩ := h; left; split <;> simp
  | noop | halt => cases h; simp
  | set _ _ | not _ _ => obtain ⟨r, v, rfl, -, rfl⟩ := h; simp
  | push _ => obtain ⟨v, -, rfl⟩ := h; exact .inr (.inl ⟨.inl rfl, v, rfl⟩)
  | jmp _ | out _ => obtain ⟨v, -, rfl⟩ := h; simp
  | pop _ =>
    obtain ⟨r, st, v, rfl, hs, rfl⟩ := h
    exact .inr (.inr ⟨.inl rfl, v, by simp [hs]⟩)
  | call _ => obtain ⟨v, -, -, rfl⟩ := h; exact .inr (.inl ⟨.inr rfl, _, rfl⟩)
  | wmem _ _ => obtain ⟨v, w, -, -, rfl⟩ := h; simp
  | ret => obtain ⟨st, v, hs, rfl⟩ := h; exact .inr (.inr ⟨.inr rfl, v, by simp [hs]⟩)
  | rmem _ _ => obtain ⟨r, v, rfl, -, -, rfl⟩ := h; simp
  | mod _ _ _ => obtain ⟨r, v, w, rfl, -, -, -, rfl⟩ := h; simp
  | eq _ _ _ | gt _ _ _ | add _ _ _ | mult _ _ _ | and _ _ _ | or _ _ _ =>
    obtain ⟨r, v, w, rfl, -, -, rfl⟩ := h; simp

/-- Only `in` changes `inbuf` and uses an answer of the line source, and only with `inbuf` empty (R18, R177). -/
theorem commits_input {i : Instr} {s t : State} (h : CommitsTo i s t) :
    t.inbuf = s.inbuf ∧ t.lines = s.lines ∨
      i.opcode = 20#16 ∧ (t.lines = s.lines ∨ s.inbuf = [] ∧ ∃ ans, s.lines = ans :: t.lines) := by
  cases i with
  | inp a =>
    obtain ⟨r, c, u, -, hr, rfl⟩ := h
    right
    rcases (readChar_char hr).2 with ⟨-, hl⟩ | ⟨hi, hl⟩
    · exact ⟨rfl, .inl hl⟩
    · exact ⟨rfl, .inr ⟨hi, _, hl⟩⟩
  | jt a b | jf a b => obtain ⟨v, w, -, -, rfl⟩ := h; left; split <;> simp
  | noop | halt => cases h; simp
  | set _ _ | not _ _ => obtain ⟨r, v, rfl, -, rfl⟩ := h; simp
  | push _ | jmp _ | out _ => obtain ⟨v, -, rfl⟩ := h; simp
  | pop _ => obtain ⟨r, st, v, rfl, -, rfl⟩ := h; simp
  | call _ => obtain ⟨v, -, -, rfl⟩ := h; simp
  | wmem _ _ => obtain ⟨v, w, -, -, rfl⟩ := h; simp
  | ret => obtain ⟨st, v, -, rfl⟩ := h; simp
  | rmem _ _ => obtain ⟨r, v, rfl, -, -, rfl⟩ := h; simp
  | mod _ _ _ => obtain ⟨r, v, w, rfl, -, -, -, rfl⟩ := h; simp
  | eq _ _ _ | gt _ _ _ | add _ _ _ | mult _ _ _ | and _ _ _ | or _ _ _ =>
    obtain ⟨r, v, w, rfl, -, -, rfl⟩ := h; simp

/-- The boundary action never touches `output`, `cfg` or `lines` (R194, R196, R201). -/
theorem boundaryAction_keeps (i : Instr) (t : State) :
    (boundaryAction i t).output = t.output ∧ (boundaryAction i t).cfg = t.cfg ∧
      (boundaryAction i t).lines = t.lines := by
  rcases boundaryAction_cases i t with e | ⟨a, -, -, -, e⟩ <;> rw [e]
  · simp
  · rcases controllerBoundary_cases t with e | ⟨-, -, -, e⟩ | ⟨-, -, e⟩ | ⟨-, -, -, -, e⟩ | ⟨-, -, -, -, e⟩ <;>
      rw [e] <;> simp

/-- The boundary action leaves memory, stack, pc and `inbuf`, or restores them from the checkpoint (R207). -/
theorem boundaryAction_restores (i : Instr) (t : State) :
    ((boundaryAction i t).mem = t.mem ∧ (boundaryAction i t).stack = t.stack ∧
      (boundaryAction i t).pc = t.pc ∧ (boundaryAction i t).inbuf = t.inbuf) ∨
    (∃ a c, i = .out a ∧ t.cfg.calEnable = true ∧ t.calState = .testing ∧ t.cp = some c ∧
      (boundaryAction i t).mem = c.mem ∧ (boundaryAction i t).stack = c.stack ∧
      (boundaryAction i t).pc = c.pc ∧ (boundaryAction i t).inbuf = c.inbuf) := by
  rcases boundaryAction_cases i t with e | ⟨a, hi, -, hcal, e⟩ <;> rw [e]
  · simp
  · rcases controllerBoundary_cases t with e | ⟨-, -, -, e⟩ | ⟨-, -, e⟩ | ⟨-, -, -, -, e⟩ |
      ⟨ht, -, -, -, e⟩ <;> rw [e]
    · simp
    · left; simp
    · left; simp
    · left; simp
    · cases hcp : t.cp with
      | none => left; simp [State.restore_none _ hcp]
      | some c => exact .inr ⟨a, c, hi, hcal, ht, rfl, by simp [State.restore_some _ _ hcp]⟩

end Sys2Proof.Machine
end

