-- ==== Sys2Proof/Laws/PerInstr.lean ====
section
/-! SUPPORT. Statements made per instruction. Family `EncodeLength`: an instruction is 1 + n cells, n its
operand count, at least 1 and at most 4 (R60, R62). -/

namespace Sys2Proof.Laws

/-- The length of an instruction's words (R62: length = 1 + n; R60: 1 to 4). -/
def EncodeLength.Statement (i : Instr) : Prop :=
  (encode i).length = 1 + i.operandCount ∧ 1 ≤ (encode i).length ∧ (encode i).length ≤ 4

theorem EncodeLength.halt : EncodeLength.Statement .halt := ⟨rfl, Nat.le_of_ble_eq_true rfl, Nat.le_of_ble_eq_true rfl⟩
theorem EncodeLength.set (a : Dst) (b : Src) : EncodeLength.Statement (.set a b) := ⟨rfl, Nat.le_of_ble_eq_true rfl, Nat.le_of_ble_eq_true rfl⟩
theorem EncodeLength.push (a : Src) : EncodeLength.Statement (.push a) := ⟨rfl, Nat.le_of_ble_eq_true rfl, Nat.le_of_ble_eq_true rfl⟩
theorem EncodeLength.pop (a : Dst) : EncodeLength.Statement (.pop a) := ⟨rfl, Nat.le_of_ble_eq_true rfl, Nat.le_of_ble_eq_true rfl⟩
theorem EncodeLength.eq (a : Dst) (b : Src) (c : Src) : EncodeLength.Statement (.eq a b c) := ⟨rfl, Nat.le_of_ble_eq_true rfl, Nat.le_of_ble_eq_true rfl⟩
theorem EncodeLength.gt (a : Dst) (b : Src) (c : Src) : EncodeLength.Statement (.gt a b c) := ⟨rfl, Nat.le_of_ble_eq_true rfl, Nat.le_of_ble_eq_true rfl⟩
theorem EncodeLength.jmp (a : Src) : EncodeLength.Statement (.jmp a) := ⟨rfl, Nat.le_of_ble_eq_true rfl, Nat.le_of_ble_eq_true rfl⟩
theorem EncodeLength.jt (a : Src) (b : Src) : EncodeLength.Statement (.jt a b) := ⟨rfl, Nat.le_of_ble_eq_true rfl, Nat.le_of_ble_eq_true rfl⟩
theorem EncodeLength.jf (a : Src) (b : Src) : EncodeLength.Statement (.jf a b) := ⟨rfl, Nat.le_of_ble_eq_true rfl, Nat.le_of_ble_eq_true rfl⟩
theorem EncodeLength.add (a : Dst) (b : Src) (c : Src) : EncodeLength.Statement (.add a b c) := ⟨rfl, Nat.le_of_ble_eq_true rfl, Nat.le_of_ble_eq_true rfl⟩
theorem EncodeLength.mult (a : Dst) (b : Src) (c : Src) : EncodeLength.Statement (.mult a b c) := ⟨rfl, Nat.le_of_ble_eq_true rfl, Nat.le_of_ble_eq_true rfl⟩
theorem EncodeLength.mod (a : Dst) (b : Src) (c : Src) : EncodeLength.Statement (.mod a b c) := ⟨rfl, Nat.le_of_ble_eq_true rfl, Nat.le_of_ble_eq_true rfl⟩
theorem EncodeLength.and (a : Dst) (b : Src) (c : Src) : EncodeLength.Statement (.and a b c) := ⟨rfl, Nat.le_of_ble_eq_true rfl, Nat.le_of_ble_eq_true rfl⟩
theorem EncodeLength.or (a : Dst) (b : Src) (c : Src) : EncodeLength.Statement (.or a b c) := ⟨rfl, Nat.le_of_ble_eq_true rfl, Nat.le_of_ble_eq_true rfl⟩
theorem EncodeLength.not (a : Dst) (b : Src) : EncodeLength.Statement (.not a b) := ⟨rfl, Nat.le_of_ble_eq_true rfl, Nat.le_of_ble_eq_true rfl⟩
theorem EncodeLength.rmem (a : Dst) (b : Src) : EncodeLength.Statement (.rmem a b) := ⟨rfl, Nat.le_of_ble_eq_true rfl, Nat.le_of_ble_eq_true rfl⟩
theorem EncodeLength.wmem (a : Src) (b : Src) : EncodeLength.Statement (.wmem a b) := ⟨rfl, Nat.le_of_ble_eq_true rfl, Nat.le_of_ble_eq_true rfl⟩
theorem EncodeLength.call (a : Src) : EncodeLength.Statement (.call a) := ⟨rfl, Nat.le_of_ble_eq_true rfl, Nat.le_of_ble_eq_true rfl⟩
theorem EncodeLength.ret : EncodeLength.Statement .ret := ⟨rfl, Nat.le_of_ble_eq_true rfl, Nat.le_of_ble_eq_true rfl⟩
theorem EncodeLength.out (a : Src) : EncodeLength.Statement (.out a) := ⟨rfl, Nat.le_of_ble_eq_true rfl, Nat.le_of_ble_eq_true rfl⟩
theorem EncodeLength.inp (a : Dst) : EncodeLength.Statement (.inp a) := ⟨rfl, Nat.le_of_ble_eq_true rfl, Nat.le_of_ble_eq_true rfl⟩
theorem EncodeLength.noop : EncodeLength.Statement .noop := ⟨rfl, Nat.le_of_ble_eq_true rfl, Nat.le_of_ble_eq_true rfl⟩

end Sys2Proof.Laws
end

