-- ==== Sys2Proof/Tests/Slice0.lean ====
section
/-! SUPPORT. The model's own tests. Expected results come from spec/30_encoding.md (encodings) and
spec/95_test_vectors.md (vectors, named by section), never from the model. Last: for every statement with
hypotheses, a concrete state and operands that meet them together. -/

namespace Sys2Proof.Tests

open Sys2Proof Sys2Proof.Machine

/-! ### Helpers -/

/-- The convention of 95_test_vectors.md: reset, the plain engine, the cells listed from address 0. -/
def start (cells : List Cell) : State := State.boot Config.plainEngine cells []

/-- The state a step answers. -/
def after (s : State) : Option State :=
  match step s with
  | .next t => some t
  | .fault _ => none
  | .refused _ => none

/-- What the decoder reads, without the cells left over. -/
def decoded (cells : List Cell) : Option Instr :=
  match decode cells with
  | .ok (i, _) => some i
  | .error _ => none

/-- Register r after one step. -/
def regAfter (r : RegIdx) (s : State) : Option Word := (after s).map fun t => t.x[r]

/-- `pc` after one step. -/
def pcAfter (s : State) : Option Pc := (after s).map fun t => t.pc

/-- `stack` after one step. -/
def stackAfter (s : State) : Option (List Word) := (after s).map fun t => t.stack

/-- The fault record after one step. -/
def faultAfter (s : State) : Option FaultRecord := (after s).bind fun t => t.faultRecord

/-! ### Well-formedness refuses an ill-formed term, one for each check -/

theorem smoke_src_invalid_low : (Instr.push (.invalid 32767)).wf = false := by decide
theorem smoke_src_invalid_register : (Instr.jt (.lit 0) (.invalid 32775)).wf = false := by decide
theorem smoke_dst_invalid_first : (Instr.pop (.invalid 32768)).wf = false := by decide
theorem smoke_dst_invalid_last : (Instr.eq (.invalid 32775) (.lit 0) (.lit 0)).wf = false := by decide
theorem smoke_well_formed : (Instr.add (.invalid 32767) (.invalid 32776) (.reg 7)).wf = true := by decide

/-! ### One word sequence per constructor, written out from R61, R63, R66 and R67 -/

theorem test_decode_halt : decoded [0x0000] = some .halt := by decide
theorem test_decode_set : decoded [0x0001, 0x8001, 0x8000] = some (.set (.reg 1) (.reg 0)) := by decide
theorem test_decode_push : decoded [0x0002, 0x7FFF] = some (.push (.lit 32767)) := by decide
theorem test_decode_pop : decoded [0x0003, 0x8003] = some (.pop (.reg 3)) := by decide
theorem test_decode_eq : decoded [0x0004, 0x8000, 0x8001, 0x0004] = some (.eq (.reg 0) (.reg 1) (.lit 4)) := by decide
theorem test_decode_gt : decoded [0x0005, 0x8002, 0x0005, 0x0004] = some (.gt (.reg 2) (.lit 5) (.lit 4)) := by decide
theorem test_decode_jmp : decoded [0x0006, 0x0004] = some (.jmp (.lit 4)) := by decide
theorem test_decode_jt : decoded [0x0007, 0x8000, 0x0064] = some (.jt (.reg 0) (.lit 100)) := by decide
theorem test_decode_jf : decoded [0x0008, 0x0001, 0x9C40] = some (.jf (.lit 1) (.invalid 40000)) := by decide
theorem test_decode_add : decoded [0x0009, 0x8000, 0x0004, 0x0005] = some (.add (.reg 0) (.lit 4) (.lit 5)) := by decide
theorem test_decode_mult : decoded [0x000A, 0x8001, 0x8002, 0x8003] = some (.mult (.reg 1) (.reg 2) (.reg 3)) := by decide
theorem test_decode_mod : decoded [0x000B, 0x0003, 0x8000, 0x0000] = some (.mod (.invalid 3) (.reg 0) (.lit 0)) := by decide
theorem test_decode_and : decoded [0x000C, 0x8004, 0x8005, 0x000A] = some (.and (.reg 4) (.reg 5) (.lit 10)) := by decide
theorem test_decode_or : decoded [0x000D, 0x8004, 0x000C, 0x8005] = some (.or (.reg 4) (.lit 12) (.reg 5)) := by decide
theorem test_decode_not : decoded [0x000E, 0x8000, 0x8007] = some (.not (.reg 0) (.reg 7)) := by decide
theorem test_decode_rmem : decoded [0x000F, 0x8000, 0x8001] = some (.rmem (.reg 0) (.reg 1)) := by decide
theorem test_decode_wmem : decoded [0x0010, 0x8002, 0x7FFF] = some (.wmem (.reg 2) (.lit 32767)) := by decide
theorem test_decode_call : decoded [0x0011, 0x0004] = some (.call (.lit 4)) := by decide
theorem test_decode_ret : decoded [0x0012] = some .ret := by decide
theorem test_decode_out : decoded [0x0013, 0x8000] = some (.out (.reg 0)) := by decide
theorem test_decode_in : decoded [0x0014, 0x8007] = some (.inp (.reg 7)) := by decide
theorem test_decode_noop : decoded [0x0015] = some .noop := by decide
/-- R65: the first opcode outside the map, and a register encoding, are no opcode. -/
theorem test_decode_illegal : decoded [22] = none ∧ decoded [32768] = none ∧ decoded [65535] = none := by decide
/-- R93: an operand word is missing. -/
theorem test_decode_missing_operand : decoded [9, 32768, 4] = none ∧ decoded [] = none := by decide

/-! ### The interface to the host -/

/-- `add r0, r1, 4` with bit 0 in the first cell and the cells counting on from it. -/
theorem test_table_word : decodeTableWord 64 (9 + 2 ^ 16 * 32768 + 2 ^ 32 * 32769 + 2 ^ 48 * 4) =
    some (.add (.reg 0) (.reg 1) (.lit 4)) := by decide
/-- Operand words the table gives no bits are zero cells. -/
theorem test_table_word_short : decodeTableWord 16 17 = some (.call (.lit 0)) := by decide
theorem test_with_fetch_word : pcAfter (State.reset.withFetchWord 32 (6 + 2 ^ 16 * 1000)) = some 1000 := by decide

/-! ### set, push, pop (2.1) -/

theorem test_set_register_source : regAfter 1 { start [1, 32769, 32768] with x := #v[77, 0, 0, 0, 0, 0, 0, 0] } = some 77 := by decide
theorem test_set_literal_destination : faultAfter (start [1, 5, 7]) = some ⟨.invalidOperand, 0, some 1⟩ := by decide
theorem test_push_on_top : stackAfter { start [2, 32767] with stack := [7] } = some [7, 32767] := by decide
theorem test_pop_takes_last : stackAfter { start [3, 32771] with stack := [7, 32767] } = some [7] ∧
    regAfter 3 { start [3, 32771] with stack := [7, 32767] } = some 32767 := by decide
theorem test_pop_decodes_first : faultAfter (start [3, 5]) = some ⟨.invalidOperand, 0, some 3⟩ := by decide

/-! ### eq, gt (2.2) -/

theorem test_eq_zero : regAfter 0 { start [4, 32768, 0, 0] with x := #v[9, 0, 0, 0, 0, 0, 0, 0] } = some 1 := by decide
theorem test_eq_differs : regAfter 0 { start [4, 32768, 32769, 5] with x := #v[9, 4, 0, 0, 0, 0, 0, 0] } = some 0 := by decide
theorem test_gt_unsigned : regAfter 2 (start [5, 32770, 32767, 0]) = some 1 := by decide
theorem test_gt_strict : regAfter 2 { start [5, 32770, 4, 4] with x := #v[0, 0, 9, 0, 0, 0, 0, 0] } = some 0 := by decide

/-! ### jmp, jt, jf, call, ret (2.3) -/

theorem test_jmp_register : pcAfter { start [6, 32768] with x := #v[1000, 0, 0, 0, 0, 0, 0, 0] } = some 1000 := by decide
theorem test_jt_taken : pcAfter { start [7, 32768, 100] with x := #v[3, 0, 0, 0, 0, 0, 0, 0] } = some 100 := by decide
theorem test_jt_decodes_unused_target : faultAfter (start [7, 0, 40000]) = some ⟨.invalidOperand, 0, some 7⟩ := by decide
theorem test_jf_taken : pcAfter (start [8, 32768, 100]) = some 100 := by decide
theorem test_jf_not_taken : pcAfter { start [8, 32768, 100] with x := #v[32767, 0, 0, 0, 0, 0, 0, 0] } = some 3 := by decide
theorem test_call_pushes_next : stackAfter { start [17, 32768] with x := #v[500, 0, 0, 0, 0, 0, 0, 0], stack := [9] } = some [9, 2] := by decide
theorem test_call_at_last_pair :
    faultAfter { start [] with mem := [(32766, 17), (32767, 4)], pc := 32766 } = some ⟨.addressOutOfRange, 32766, some 17⟩ := by decide
theorem test_ret_pops : pcAfter { start [18] with stack := [9, 2] } = some 2 ∧
    stackAfter { start [18] with stack := [9, 2] } = some [9] := by decide
theorem test_ret_empty : faultAfter (start [18]) = some ⟨.stackUnderflow, 0, some 18⟩ := by decide

/-! ### add, mult, mod, and, or, not (2.4) -/

theorem test_add_wraps : regAfter 0 (start [9, 32768, 32767, 2]) = some 1 := by decide
theorem test_add_aliases : regAfter 0 { start [9, 32768, 32768, 32768] with x := #v[300, 0, 0, 0, 0, 0, 0, 0] } = some 600 := by decide
theorem test_mult_wraps : regAfter 0 (start [10, 32768, 300, 200]) = some 27232 := by decide
theorem test_mult_largest : regAfter 0 (start [10, 32768, 32767, 32767]) = some 1 := by decide
theorem test_mod_remainder : regAfter 0 (start [11, 32768, 17, 5]) = some 2 := by decide
theorem test_mod_zero : faultAfter (start [11, 32768, 5, 0]) = some ⟨.divideByZero, 0, some 11⟩ := by decide
theorem test_and : regAfter 0 (start [12, 32768, 32767, 21845]) = some 21845 := by decide
theorem test_or : regAfter 0 (start [13, 32768, 21845, 10922]) = some 32767 := by decide
theorem test_not : regAfter 0 (start [14, 32768, 0]) = some 32767 := by decide
theorem test_not_alternating : regAfter 0 (start [14, 32768, 21845]) = some 10922 := by decide

/-! ### rmem, wmem (2.5) -/

theorem test_rmem_own_opcode : regAfter 0 (start [15, 32768, 0]) = some 15 := by decide
theorem test_rmem_non_word : faultAfter (start [15, 32768, 1]) = some ⟨.nonWordValue, 0, some 15⟩ := by decide
theorem test_wmem_own_operand : (after (start [16, 1, 9])).map (fun t => (t.mem, t.pc)) =
    some ([(0, 16), (1, 9), (2, 9)], 3) := by decide
/-- R261, decision D3: an address not listed reads as 0, so storing 0 (P2's `wmem 11, 0`) lists nothing. -/
theorem test_wmem_zero_unlists : (after { start [16, 11, 0] with mem := [(0, 16), (1, 11), (11, 19)] }).map (fun t => t.mem) =
    some [(0, 16), (1, 11)] := by decide

/-! ### halt, noop, out, in (2.6) -/

theorem test_halt_at_top : (after { start [] with pc := 32767 }).map (fun t => (t.status, t.pc)) = some (.halted, 32768) := by decide
theorem test_noop : pcAfter (start [21]) = some 1 := by decide
theorem test_noop_then_past_end :
    faultAfter { start [] with pc := 32768 } = some ⟨.addressOutOfRange, 32768, none⟩ := by decide
theorem test_out_register : (after { start [19, 32768] with x := #v[32767, 0, 0, 0, 0, 0, 0, 0] }).map (fun t => t.output) = some [32767] := by decide
theorem test_in_refills : (after { start [20, 32768] with lines := [.line [104, 105, 10]] }).map (fun t => (t.x[0], t.inbuf, t.lines)) =
    some (104, [105, 10], []) := by decide
theorem test_in_decodes_first : (after { start [20, 5] with lines := [.line [104, 10]] }).map (fun t => (t.faultRecord, t.lines)) =
    some (some ⟨.invalidOperand, 0, some 20⟩, [.line [104, 10]]) := by decide

/-! ### Fetch (2.7) -/

theorem test_fetch_illegal : faultAfter (start [65535]) = some ⟨.illegalOpcode, 0, some 65535⟩ := by decide
theorem test_fetch_range_before_operand :
    faultAfter { start [] with mem := [(32766, 9), (32767, 40000)], pc := 32766 } = some ⟨.addressOutOfRange, 32766, some 9⟩ := by decide
theorem test_fetch_last_four : (after { start [] with mem := [(32764, 9), (32765, 32768), (32766, 1), (32767, 2)], pc := 32764 }).map
    (fun t => (t.x[0], t.pc, t.status)) = some (3, 32768, .running) := by decide

/-! ### The controller (P6) -/

/-- The configuration of P6, with a given last candidate. -/
def sweep (last : Word) : Config where
  calEnable := true
  calReg := 7
  armStr := [63]
  accStr := [89]
  rejStr := [78]
  candFirst := 1
  candLast := last

/-- The cells of P6. -/
def sweepCells : List Cell := [19, 63, 4, 32768, 32775, 5, 7, 32768, 13, 19, 78, 0, 21, 19, 89, 0]

/-- The first state of P6. -/
def sweepStart : State := State.boot (sweep 32767) sweepCells []

/-- P6 right after step 1, as the trace gives it. -/
def armed : State :=
  { sweepStart with
    x := #v[0, 0, 0, 0, 0, 0, 0, 1]
    pc := 2
    output := [63]
    cp := some ⟨Memory.ofImage 0 sweepCells, #v[0, 0, 0, 0, 0, 0, 0, 0], [], 2, [], 1⟩
    calState := .testing
    scanBase := 1 }

/-- P6 before its `out 'N'` at 9. -/
def rejecting : State := { armed with pc := 9 }

/-- P6 before its `out 'Y'` at 13. -/
def accepting : State := { armed with pc := 13 }

theorem test_arming : after sweepStart = some armed := by decide
theorem test_no_arming_on_nonzero : (after { sweepStart with x := #v[0, 0, 0, 0, 0, 0, 0, 9] }).map (fun t => (t.calState, t.cp)) =
    some (.idle, none) := by decide
theorem test_retry_restores : (after { rejecting with stack := [5] }).map (fun t => (t.pc, t.stack, t.output)) =
    some (2, [], [63, 78]) := by decide
theorem test_retry_candidate : (after rejecting).map (fun t => (t.x[7], t.candidate, t.scanBase)) = some (2, 2, 2) := by decide
theorem test_acceptance : (after accepting).map (fun t => (t.calState, t.pc, t.status)) = some (.accepted, 15, .running) := by decide
theorem test_exhaustion : (after { rejecting with cfg := sweep 1 }).map (fun t => (t.status, t.calState, t.pc, t.x[7], t.faultRecord)) =
    some (.exhausted, .exhausted, 11, 1, none) := by decide

/-! ### Image files (R52) -/

theorem test_image_low_byte_first : imageOfBytes [0x09, 0x00, 0x00, 0x80] = some [9, 32768] := by decide
theorem test_image_odd : imageOfBytes [0x09, 0x00, 0x00] = none := by decide

/-! ### Every statement with hypotheses has a state and operands that meet them -/

/-- A state right before the end of memory with `push` at 32767. -/
def pushAtTop : State := { start [] with mem := [(32767, 2)], pc := 32767 }

/-- The state at an `in r0` with an empty LINE port. -/
def waiting : State := start [20, 32768]

theorem witness_DecodeInvertsEncode :
    (Instr.eq (.invalid 32767) (.invalid 32776) (.lit 32767)).wf = true ∧
      (Instr.wmem (.reg 7) (.invalid 65535)).wf = true := by decide

theorem witness_EncodeInvertsDecode :
    decode [9, 32768, 4, 5, 7] = .ok (.add (.reg 0) (.lit 4) (.lit 5), [7]) := by
  simp [decode, decodeOpcode, takeThree, srcOfCell, dstOfCell]

theorem witness_EncodingFollowsOpcodeMap : 21 < (22 : Cell).toNat ∧ 21 < (65535 : Cell).toNat := by decide

/-- The shortest and the longest opcode, with exactly enough cells and with one too few. -/
theorem witness_OpcodeAloneFixesLength :
    ([0, 2, 1, 1, 3, 3, 1, 2, 2, 3, 3, 3, 3, 3, 2, 2, 2, 1, 0, 1, 1, 0] : List Nat)[(21 : Cell).toNat]? = some 0 ∧
    ([0, 1, 0, 1, 1, 1, 0, 0, 0, 1, 1, 1, 1, 1, 1, 1, 0, 0, 0, 0, 1, 0] : List Nat)[(21 : Cell).toNat]? = some 0 ∧
    0 ≤ ([] : List Cell).length ∧
    ([0, 2, 1, 1, 3, 3, 1, 2, 2, 3, 3, 3, 3, 3, 2, 2, 2, 1, 0, 1, 1, 0] : List Nat)[(9 : Cell).toNat]? = some 3 ∧
    ([0, 1, 0, 1, 1, 1, 0, 0, 0, 1, 1, 1, 1, 1, 1, 1, 0, 0, 0, 0, 1, 0] : List Nat)[(9 : Cell).toNat]? = some 1 ∧
    3 ≤ ([32768, 4, 5] : List Cell).length ∧ ([32768, 4] : List Cell).length < 3 := by decide

/-- Both ends of each of the three ranges. -/
theorem witness_ResolveClassifiesCells :
    (0 : Cell).toNat ≤ 32767 ∧ (32767 : Cell).toNat ≤ 32767 ∧
    (32768 : Cell).toNat = 32768 + (0 : RegIdx).val ∧ (32775 : Cell).toNat = 32768 + (7 : RegIdx).val ∧
    32775 < (32776 : Cell).toNat ∧ 32775 < (65535 : Cell).toNat := by decide

theorem witness_DestClassifiesCells :
    (32768 : Cell).toNat = 32768 + (0 : RegIdx).val ∧ (32775 : Cell).toNat = 32768 + (7 : RegIdx).val ∧
    ((32767 : Cell).toNat ≤ 32767 ∨ 32775 < (32767 : Cell).toNat) ∧
    ((32776 : Cell).toNat ≤ 32767 ∨ 32775 < (32776 : Cell).toNat) := by decide

theorem witness_IllegalOperandAlwaysFaults :
    (Instr.mod (.invalid 3) (.reg 0) (.lit 0)).operandsLegal = false ∧
      (Instr.jt (.lit 0) (.invalid 40000)).operandsLegal = false ∧
      (Instr.inp (.invalid 5)).operandsLegal = false := by decide

theorem witness_SetCopiesResolvedValue : Denotes (.reg 7) armed 1 ∧ Denotes (.lit 32767) armed 32767 := ⟨rfl, rfl⟩

theorem witness_PushAppendsResolvedValue : Denotes (.lit 0) armed 0 ∧ (Src.invalid 32776).legal = false := ⟨rfl, rfl⟩

theorem witness_PopTakesTopOrUnderflows :
    { start [] with stack := [7, 32767] }.stack = [7] ++ [32767] ∧ (start []).stack = [] := ⟨rfl, rfl⟩

theorem witness_CompareWritesOneOrZero : Denotes (.reg 7) armed 1 ∧ Denotes (.lit 1) armed 1 := ⟨rfl, rfl⟩

theorem witness_JmpTransfersToTarget : Denotes (.lit 32767) armed 32767 ∧ (Src.invalid 65535).legal = false := ⟨rfl, rfl⟩

theorem witness_ConditionalJumpsTestTheirOperand : Denotes (.reg 0) armed 0 ∧ Denotes (.lit 32767) armed 32767 := ⟨rfl, rfl⟩

theorem witness_AddAndMultReduceExactResult : Denotes (.lit 32767) armed 32767 ∧ Denotes (.reg 7) armed 1 := ⟨rfl, rfl⟩

theorem witness_ModWritesRemainderOrFaults :
    Denotes (.lit 5) armed 5 ∧ Denotes (.reg 7) armed 1 ∧ (1 : Word) ≠ 0#15 ∧ Denotes (.reg 0) armed 0 ∧ (0 : Word) = 0#15 :=
  ⟨rfl, rfl, by decide, rfl, rfl⟩

theorem witness_AndOrActBitwise : Denotes (.lit 21845) armed 21845 ∧ Denotes (.reg 7) armed 1 := ⟨rfl, rfl⟩

theorem witness_NotComplementsFifteenBits : Denotes (.lit 0) armed 0 ∧ Denotes (.reg 7) armed 1 := ⟨rfl, rfl⟩

/-- A cell that holds 32767 and one that holds 32768. -/
theorem witness_RmemReadsCellOrFaults :
    Denotes (.lit 0) (start [32767, 32768]) 0 ∧ ((start [32767, 32768]).mem.read (0 : Word).toNat).toNat ≤ 32767 ∧
    Denotes (.lit 1) (start [32767, 32768]) 1 ∧ 32767 < ((start [32767, 32768]).mem.read (1 : Word).toNat).toNat :=
  ⟨rfl, by decide, rfl, by decide⟩

theorem witness_WmemStoresWordAtAddress :
    armed.mem.wf ∧ Denotes (.lit 32767) armed 32767 ∧ Denotes (.reg 7) armed 1 ∧
      ((Src.lit 0).legal = false ∨ (Src.invalid 32776).legal = false) :=
  ⟨by decide, rfl, rfl, .inr rfl⟩

/-- The last address at which `call` completes and the first at which it does not. -/
theorem witness_CallPushesReturnAddress :
    Denotes (.lit 4) { start [] with pc := 32765 } 4 ∧ { start [] with pc := 32765 }.pc.toNat + 2 ≤ 32767 ∧
    Denotes (.lit 4) { start [] with pc := 32766 } 4 ∧ 32767 < { start [] with pc := 32766 }.pc.toNat + 2 :=
  ⟨rfl, by decide, rfl, by decide⟩

theorem witness_RetPopsTargetOrUnderflows :
    { start [] with stack := [9, 2] }.stack = [9] ++ [2] ∧ (start []).stack = [] := ⟨rfl, rfl⟩

theorem witness_OutAppendsCode : Denotes (.lit 65) armed 65 := rfl

theorem witness_InTakesNextCharacter :
    { waiting with inbuf := [105, 10] }.inbuf = 105 :: [10] ∧
    ({ waiting with lines := [.line [104, 10], .noLine] }.inbuf = [] ∧
      { waiting with lines := [.line [104, 10], .noLine] }.lines = .line (104 :: [10]) :: [.noLine]) ∧
    ({ waiting with lines := [.noLine] }.inbuf = [] ∧ { waiting with lines := [.noLine] }.lines = .noLine :: []) :=
  ⟨rfl, ⟨rfl, rfl⟩, ⟨rfl, rfl⟩⟩

theorem witness_InWithoutLineStopsOrWaits :
    waiting.inbuf = [] ∧ waiting.lines = [] ∧ { waiting with lines := [.line []] }.lines = .line [] :: [] :=
  ⟨rfl, rfl, rfl⟩

/-- `add r0, 1, 2` in the last four cells of memory. -/
theorem witness_StepRunsInstructionAtPc :
    { start [] with mem := [(32764, 9), (32765, 32768), (32766, 1), (32767, 2)], pc := 32764 }.status = .running ∧
    (Instr.add (.reg 0) (.lit 1) (.lit 2)).wf = true ∧
    (32764 : Pc).toNat + (Instr.add (.reg 0) (.lit 1) (.lit 2)).operandCount ≤ 32767 ∧
    ∀ k, k ≤ (Instr.add (.reg 0) (.lit 1) (.lit 2)).operandCount →
      (encode (.add (.reg 0) (.lit 1) (.lit 2)))[k]? =
        some (Memory.read [(32764, 9), (32765, 32768), (32766, 1), (32767, 2)] ((32764 : Pc).toNat + k)) := by decide

theorem witness_IllegalOpcodeFaults :
    { start [] with mem := [(32767, 22)], pc := 32767 }.status = .running ∧
    { start [] with mem := [(32767, 22)], pc := 32767 }.pc.toNat ≤ 32767 ∧
    21 < ({ start [] with mem := [(32767, 22)], pc := 32767 }.mem.read (32767 : Pc).toNat).toNat := by decide

/-- `pc` = 32768, and `push` at 32767. -/
theorem witness_FetchPastMemoryEndFaults :
    32767 < { start [] with pc := 32768 }.pc.toNat ∧ pushAtTop.status = .running ∧ pushAtTop.pc.toNat ≤ 32767 ∧
    32767 < pushAtTop.pc.toNat + 1 ∧
    ([0, 2, 1, 1, 3, 3, 1, 2, 2, 3, 3, 3, 3, 3, 2, 2, 2, 1, 0, 1, 1, 0] : List Nat)[(opcodeCell pushAtTop).toNat]?
      = some 1 := by decide

theorem witness_FaultChangesOnlyStatus :
    ∃ s' f, step (start [18]) = .next s' ∧ s'.status = .faulted f := ⟨_, _, rfl, rfl⟩

theorem witness_NoStepUnlessRunning :
    step { start [] with status := .halted } = .fault .notRunning ∧ (start []).status = .running := ⟨rfl, rfl⟩

theorem witness_RunningStepsUnlessWaiting :
    (start [21]).status = .running ∧ (∃ s', step (start [21]) = .next s') ∧
      waiting.status = .running ∧ step waiting = .fault .awaitingLine := ⟨rfl, ⟨_, rfl⟩, rfl, rfl⟩

theorem witness_WaitEndsWithAnswer : step waiting = .fault .awaitingLine := rfl

theorem witness_OutputIsAppendOnly :
    (∃ s', step (start [21]) = .next s') ∧ ∃ s', step rejecting = .next s' := ⟨⟨_, rfl⟩, ⟨_, rfl⟩⟩

theorem witness_ControllerStateChangesOnlyAtOut :
    (∃ s', step rejecting = .next s') ∧ rejecting.cp.isSome = true ∧
      (∃ s', step armed = .next s') ∧ (opcodeCell armed).toNat ≠ 19 ∧
      (∃ s', step (start [19, 65]) = .next s') ∧ (start [19, 65]).cfg.calEnable = false :=
  ⟨⟨_, rfl⟩, rfl, ⟨_, rfl⟩, by decide, ⟨_, rfl⟩, rfl⟩

/-- A destination, the arming write, and the write of the next candidate. -/
theorem witness_RegistersWrittenOnlyAsListed :
    (∃ s', step (start [9, 32768, 4, 5]) = .next s' ∧ s'.x[(0 : RegIdx)] ≠ (start [9, 32768, 4, 5]).x[(0 : RegIdx)]) ∧
    (∃ s', step sweepStart = .next s' ∧ s'.x[(7 : RegIdx)] ≠ sweepStart.x[(7 : RegIdx)]) ∧
    (∃ s', step rejecting = .next s' ∧ s'.x[(7 : RegIdx)] ≠ rejecting.x[(7 : RegIdx)]) :=
  ⟨⟨_, rfl, by decide⟩, ⟨_, rfl, by decide⟩, ⟨_, rfl, by decide⟩⟩

/-- A `wmem`, and a restore that undoes one. -/
theorem witness_MemoryWrittenOnlyByWmemOrRestore :
    (start [16, 32767, 9]).mem.wf ∧
    (∃ s', step (start [16, 32767, 9]) = .next s' ∧ s'.mem.read 32767 ≠ (start [16, 32767, 9]).mem.read 32767) ∧
    { rejecting with mem := Memory.write rejecting.mem 100 1 }.mem.wf ∧
    (∃ s', step { rejecting with mem := Memory.write rejecting.mem 100 1 } = .next s' ∧
      s'.mem.read 100 ≠ { rejecting with mem := Memory.write rejecting.mem 100 1 }.mem.read 100) :=
  ⟨by decide, ⟨_, rfl, by decide⟩, by decide, ⟨_, rfl, by decide⟩⟩

theorem witness_StackChangesByOneElement :
    (∃ s', step (start [2, 7]) = .next s') ∧ (∃ s', step { start [18] with stack := [9, 2] } = .next s') ∧
      (∃ s', step { rejecting with stack := [5] } = .next s') := ⟨⟨_, rfl⟩, ⟨_, rfl⟩, ⟨_, rfl⟩⟩

/-- A refill, and a restore that replaces `inbuf`. -/
theorem witness_LineSourceAskedOnlyByInWhenEmpty :
    (∃ s', step { waiting with lines := [.line [104, 10]] } = .next s' ∧
      s'.lines ≠ { waiting with lines := [.line [104, 10]] }.lines) ∧
    (∃ s', step { rejecting with inbuf := [10] } = .next s' ∧ s'.inbuf ≠ { rejecting with inbuf := [10] }.inbuf) :=
  ⟨⟨_, rfl, by decide⟩, ⟨_, rfl, by decide⟩⟩

/-- `wmem 3, 0` and `wmem 3, 22`, each over the opcode of the following instruction. -/
theorem witness_StoreSeenByNextFetch :
    (start [16, 3, 0, 21]).mem.wf ∧ (start [16, 3, 0, 21]).status = .running ∧
    Denotes (.lit 3) (start [16, 3, 0, 21]) 3 ∧ Denotes (.lit 0) (start [16, 3, 0, 21]) 0 ∧
    (3 : Word).toNat = (start [16, 3, 0, 21]).pc.toNat + 3 ∧
    (∃ t, exec (.wmem (.lit 3) (.lit 0)) (start [16, 3, 0, 21]) = .next t) ∧
    (∃ t, exec (.wmem (.lit 3) (.lit 22)) (start [16, 3, 22, 21]) = .next t) ∧ 21 < (22 : Word).toNat :=
  ⟨by decide, rfl, rfl, rfl, by decide, ⟨_, rfl⟩, ⟨_, rfl⟩, by decide⟩

theorem witness_WmemThenRmemReturnsWord : armed.mem.wf := by decide

/-- A cell above 32767 that the step keeps, and one that a restore brings back. -/
theorem witness_NoStepMakesNonWordCell :
    armed.mem.wf ∧ (∃ s', step armed = .next s' ∧ 32767 < (s'.mem.read 3).toNat) ∧
    { rejecting with mem := Memory.write rejecting.mem 3 1 }.mem.wf ∧
    (∃ s', step { rejecting with mem := Memory.write rejecting.mem 3 1 } = .next s' ∧ 32767 < (s'.mem.read 3).toNat) :=
  ⟨by decide, ⟨_, rfl, by decide⟩, by decide, ⟨_, rfl, by decide⟩⟩

theorem witness_CaptureSnapshotsOnce : sweepStart.cp = none ∧ armed.cp.isSome = true := ⟨rfl, rfl⟩

theorem witness_RestoreReplacesFiveSubstates : ∃ c, rejecting.cp = some c := ⟨_, rfl⟩

/-- A capture, then a step that changes `output` and `pc`. -/
theorem witness_RestoreReturnsToCapture :
    sweepStart.cp = none ∧ ∃ t, Host.Core.run Sys2Proof.core 2 sweepStart.capture = .next t := ⟨rfl, ⟨_, rfl⟩⟩

theorem witness_OutArmsController :
    sweepStart.status = .running ∧ fetch sweepStart = .ok (.out (.lit 63)) ∧ Denotes (.lit 63) sweepStart 63 ∧
    sweepStart.cfg.calEnable = true ∧ sweepStart.calState = .idle ∧ sweepStart.cp = none ∧
    CompletedAt sweepStart.cfg.armStr 0 (sweepStart.output ++ [63]) ∧ sweepStart.x[sweepStart.cfg.calReg] = 0#15 ∧
    (let s := { sweepStart with x := #v[0, 0, 0, 0, 0, 0, 0, 9] }
     s.status = .running ∧ fetch s = .ok (.out (.lit 63)) ∧ Denotes (.lit 63) s 63 ∧ s.cfg.calEnable = true ∧
       s.calState = .idle ∧ s.cp = none ∧
       ¬ (CompletedAt s.cfg.armStr 0 (s.output ++ [63]) ∧ s.x[s.cfg.calReg] = 0#15)) :=
  ⟨rfl, rfl, rfl, rfl, rfl, rfl, ⟨[], rfl, Nat.le_refl 0⟩, rfl, rfl, rfl, rfl, rfl, rfl, rfl,
    fun h => absurd h.2 (by decide)⟩

/-- The acceptance oracle completed; neither oracle completed (an `out 'N'` under an oracle of two codes). -/
theorem witness_AcceptanceOracleAccepts :
    accepting.status = .running ∧ fetch accepting = .ok (.out (.lit 89)) ∧ Denotes (.lit 89) accepting 89 ∧
    accepting.cfg.calEnable = true ∧ accepting.calState = .testing ∧
    CompletedAt accepting.cfg.accStr accepting.scanBase (accepting.output ++ [89]) ∧
    (let s := { rejecting with cfg := { sweep 5 with rejStr := [63, 78] } }
     s.status = .running ∧ fetch s = .ok (.out (.lit 78)) ∧ Denotes (.lit 78) s 78 ∧ s.cfg.calEnable = true ∧
       s.calState = .testing ∧ ¬ CompletedAt s.cfg.accStr s.scanBase (s.output ++ [78]) ∧
       ¬ CompletedAt s.cfg.rejStr s.scanBase (s.output ++ [78])) :=
  ⟨rfl, rfl, rfl, rfl, rfl, ⟨[63], rfl, Nat.le_refl 1⟩, rfl, rfl, rfl, rfl, rfl,
    endsWith_false_iff.1 (by decide), endsWith_false_iff.1 (by decide)⟩

theorem witness_RejectionOracleRetries :
    rejecting.status = .running ∧ fetch rejecting = .ok (.out (.lit 78)) ∧ Denotes (.lit 78) rejecting 78 ∧
    rejecting.cfg.calEnable = true ∧ rejecting.calState = .testing ∧ (∃ c, rejecting.cp = some c) ∧
    rejecting.candidate ≠ rejecting.cfg.candLast ∧
    ¬ CompletedAt rejecting.cfg.accStr rejecting.scanBase (rejecting.output ++ [78]) ∧
    CompletedAt rejecting.cfg.rejStr rejecting.scanBase (rejecting.output ++ [78]) :=
  ⟨rfl, rfl, rfl, rfl, rfl, ⟨_, rfl⟩, by decide, endsWith_false_iff.1 (by decide), ⟨[63], rfl, Nat.le_refl 1⟩⟩

theorem witness_LastRejectionExhausts :
    (let s := { rejecting with cfg := sweep 1 }
     s.status = .running ∧ fetch s = .ok (.out (.lit 78)) ∧ Denotes (.lit 78) s 78 ∧ s.cfg.calEnable = true ∧
       s.calState = .testing ∧ s.candidate = s.cfg.candLast ∧
       ¬ CompletedAt s.cfg.accStr s.scanBase (s.output ++ [78]) ∧
       CompletedAt s.cfg.rejStr s.scanBase (s.output ++ [78])) :=
  ⟨rfl, rfl, rfl, rfl, rfl, rfl, endsWith_false_iff.1 (by decide), ⟨[63], rfl, Nat.le_refl 1⟩⟩

/-- Accepted, at an `out` whose code completes the rejection oracle. -/
theorem witness_AcceptedControllerNeverActs :
    (let s := { rejecting with calState := .accepted }
     s.status = .running ∧ fetch s = .ok (.out (.lit 78)) ∧ Denotes (.lit 78) s 78 ∧ s.cfg.calEnable = true ∧
       s.calState = .accepted) := ⟨rfl, rfl, rfl, rfl, rfl⟩

theorem witness_PlainEngineIgnoresConfiguration :
    (start [19, 65]).cfg.calEnable = false ∧ { sweep 5 with calEnable := false }.calEnable = false := ⟨rfl, rfl⟩

theorem witness_CandidateStepsUpByOne :
    ∃ s', step rejecting = .next s' ∧ s'.candidate ≠ rejecting.candidate := ⟨_, rfl, by decide⟩

/-- An image that is accepted, and byte lists of both parities. -/
theorem witness_LaunchLoadsImageVerbatim :
    (∃ s, launch (sweep 5) sweepCells [.noLine] = some s) ∧
      ([9, 0, 0] : List (BitVec 8)).length % 2 = 1 ∧ ([9, 0] : List (BitVec 8)).length % 2 = 0 :=
  ⟨⟨_, rfl⟩, rfl, rfl⟩

theorem witness_LaunchEstablishesInvariant : ∃ s, launch (sweep 5) sweepCells [.noLine] = some s := ⟨_, rfl⟩

/-- P6 after its step 1: a state in Testing, with a checkpoint, that satisfies the invariant and steps on. -/
theorem witness_StepKeepsInvariant : Inv armed ∧ ∃ s', step armed = .next s' :=
  ⟨{ cfg_valid := by decide
     mem_wf := by decide
     pc_range := by decide
     not_armed := by decide
     disabled_idle := by decide
     cp_iff := by decide
     cp_ok := fun c h => by
      cases h
      exact ⟨by decide, by decide, by decide, by decide⟩
     scan_le := by decide
     cand_first_le := by decide
     cand_le_last := by decide
     idle_first := by decide
     exhausted_iff := by decide
     fault_addr := fun _ h => by cases h }, ⟨_, rfl⟩⟩

end Sys2Proof.Tests
end

section
/-! PROOFS. The encoding (spec/30_encoding.md R62 to R68): the length that an opcode fixes, the value that an
operand cell resolves to, and the words of the 22 instructions. -/

namespace Sys2Proof.Machine

/-- The operand counts of R63, by opcode. -/
def operandCounts : List Nat := [0, 2, 1, 1, 3, 3, 1, 2, 2, 3, 3, 3, 3, 3, 2, 2, 2, 1, 0, 1, 1, 0]

/-- The number of operands of mode R in R63, by opcode. -/
def dstCounts : List Nat := [0, 1, 0, 1, 1, 1, 0, 0, 0, 1, 1, 1, 1, 1, 1, 1, 0, 0, 0, 0, 1, 0]

theorem operandCounts_opcode (i : Instr) : operandCounts[i.opcode.toNat]? = some i.operandCount := by
  cases i <;> rfl

theorem dstCounts_opcode (i : Instr) : dstCounts[i.opcode.toNat]? = some i.dsts.length := by
  cases i <;> rfl

/-- One cell for the opcode and one for each operand (R62). -/
theorem length_encode (i : Instr) : (encode i).length = 1 + i.operandCount := by
  simp [encode, Instr.operandCount, Nat.add_comm]

/-- The answer `d` takes exactly `n` of the cells after the opcode, whatever they hold, or names the opcode
whose operand cells are missing (R62). -/
def ConsumesExactly (op : Cell) (n : Nat) (rest : List Cell)
    (d : Except DecodeError (Instr × List Cell)) : Prop :=
  (n ≤ rest.length → ∃ i, d = .ok (i, rest.drop n)) ∧
    (rest.length < n → d = .error (.missingOperandCell op))

theorem ok_consumesExactly (op : Cell) (i : Instr) (rest : List Cell) :
    ConsumesExactly op 0 rest (.ok (i, rest)) :=
  ⟨fun _ => ⟨i, rfl⟩, by simp⟩

theorem takeOne_consumesExactly (op : Cell) (k : Cell → Instr) (rest : List Cell) :
    ConsumesExactly op 1 rest (takeOne op k rest) :=
  match rest with
  | [] => ⟨by simp, fun _ => rfl⟩
  | wa :: _ => ⟨fun _ => ⟨k wa, rfl⟩, by simp⟩

theorem takeTwo_consumesExactly (op : Cell) (k : Cell → Cell → Instr) (rest : List Cell) :
    ConsumesExactly op 2 rest (takeTwo op k rest) :=
  match rest with
  | [] => ⟨by simp, fun _ => rfl⟩
  | [_] => ⟨by simp, fun _ => rfl⟩
  | wa :: wb :: _ => ⟨fun _ => ⟨k wa wb, rfl⟩, by simp⟩

theorem takeThree_consumesExactly (op : Cell) (k : Cell → Cell → Cell → Instr) (rest : List Cell) :
    ConsumesExactly op 3 rest (takeThree op k rest) :=
  match rest with
  | [] => ⟨by simp, fun _ => rfl⟩
  | [_] => ⟨by simp, fun _ => rfl⟩
  | [_, _] => ⟨by simp, fun _ => rfl⟩
  | wa :: wb :: wc :: _ => ⟨fun _ => ⟨k wa wb wc, rfl⟩, by simp⟩

/-- The decoder takes as many cells as the opcode map lists for the opcode. -/
theorem decode_consumesExactly {op : Cell} {n : Nat} (rest : List Cell)
    (hn : operandCounts[op.toNat]? = some n) : ConsumesExactly op n rest (decode (op :: rest)) := by
  have hlt : op.toNat < 22 := (List.getElem?_eq_some_iff.1 hn).1
  simp only [decode, decodeOpcode]
  interval_cases op.toNat
  all_goals
    obtain rfl := Option.some.inj hn
    simp only [ok_consumesExactly, takeOne_consumesExactly, takeTwo_consumesExactly,
      takeThree_consumesExactly]

/-- Settles O4: the decoder consumes exactly the listed cells, and what it gives has the opcode read, which
fixes both counts. -/
theorem opcodeAloneFixesLength : Obligations.OpcodeAloneFixesLength := by
  intro op rest n m hn hm
  obtain ⟨hok, hmissing⟩ := decode_consumesExactly rest hn
  refine ⟨fun hlen => ?_, hmissing⟩
  obtain ⟨i, hi⟩ := hok hlen
  obtain rfl := opcode_of_decode hi
  obtain rfl : i.operandCount = n := Option.some.inj ((operandCounts_opcode i).symm.trans hn)
  obtain rfl : i.dsts.length = m := Option.some.inj ((dstCounts_opcode i).symm.trans hm)
  exact ⟨i, hi, rfl, rfl, rfl, length_encode i⟩

theorem srcOfCell_of_le {w : Cell} (h : w.toNat ≤ 32767) : srcOfCell w = .lit (w.setWidth 15) := by
  rcases srcOfCell_cases w with ⟨-, hw⟩ | ⟨r, hr, -⟩ | ⟨hgt, -⟩
  · exact hw
  · omega
  · omega

theorem srcOfCell_of_eq_reg {w : Cell} {r : RegIdx} (h : w.toNat = 32768 + r.val) :
    srcOfCell w = .reg r := by
  have hw : w = cellOfSrc (.reg r) := BitVec.eq_of_toNat_eq (h.trans (regCell_toNat r).symm)
  rw [hw, srcOfCell_cellOfSrc rfl]

theorem srcOfCell_of_gt {w : Cell} (h : 32775 < w.toNat) : srcOfCell w = .invalid w := by
  rcases srcOfCell_cases w with ⟨hle, -⟩ | ⟨r, hr, -⟩ | ⟨-, hw⟩
  · omega
  · omega
  · exact hw

/-- A cell that holds a Word keeps its value when bit 15 is dropped (R66). -/
theorem toNat_setWidth_word {w : Cell} (h : w.toNat ≤ 32767) : (w.setWidth 15 : Word).toNat = w.toNat := by
  rw [BitVec.toNat_setWidth]
  omega

/-- Settles O6, by the three ranges of R66. -/
theorem resolveClassifiesCells : Obligations.ResolveClassifiesCells := by
  intro w op s k
  refine ⟨fun h => ⟨w.setWidth 15, toNat_setWidth_word h, ?_⟩, fun r h => ?_, fun h => ?_⟩
  · rw [srcOfCell_of_le h]
    exact withValue_of rfl
  · rw [srcOfCell_of_eq_reg h]
    exact withValue_of rfl
  · rw [srcOfCell_of_gt h]
    exact withValue_invalid rfl

theorem cellOfSrc_lit_toNat (v : Word) : (cellOfSrc (.lit v)).toNat = v.toNat :=
  BitVec.toNat_setWidth_of_le (by decide)

/-- Settles O3: each row of the map by evaluating the encoder, the operand cells by their values, and the
opcodes above 21 by `decode_illegal`. -/
theorem encodingFollowsOpcodeMap : Obligations.EncodingFollowsOpcodeMap := by
  refine ⟨rfl, fun _ _ => rfl, fun _ => rfl, fun _ => rfl, fun _ _ _ => rfl, fun _ _ _ => rfl,
    fun _ => rfl, fun _ _ => rfl, fun _ _ => rfl, fun _ _ _ => rfl, fun _ _ _ => rfl,
    fun _ _ _ => rfl, fun _ _ _ => rfl, fun _ _ _ => rfl, fun _ _ => rfl, fun _ _ => rfl,
    fun _ _ => rfl, fun _ => rfl, rfl, fun _ => rfl, fun _ => rfl, rfl, ?_, cellOfSrc_lit_toNat, ?_⟩
  · exact fun r => ⟨regCell_toNat r, regCell_toNat r⟩
  · exact fun _ _ => decode_illegal

end Sys2Proof.Machine
end

section
/-! PROOFS. Data movement (spec/41_set_push_pop.md R110 to R112): the execute phase of `push`. -/

namespace Sys2Proof.Machine

/-- `push` resolves its operand, appends the value and goes on after its two words (R111). -/
theorem exec_push (a : Src) (s : State) :
    exec (.push a) s = withValue 2#16 a s fun v => .next ((s.push v).advance 1) := rfl

/-- Settles O10: the operand of `push` resolves to its value, or is the one thing that can fail. -/
theorem pushAppendsResolvedValue : Obligations.PushAppendsResolvedValue := by
  intro s a
  refine ⟨rfl, fun v hv => ?_, fun hillegal => ?_⟩
  · exact (exec_push a s).trans (withValue_of hv)
  · exact (exec_push a s).trans (withValue_invalid hillegal)

end Sys2Proof.Machine
end

section
/-! PROOFS. Control transfer (spec/43_control_transfer.md R130, R134): the execute phases of `jmp` and `ret`, and
the stack underflow that `ret` and `pop` share (spec/60_exceptions.md R234). -/

namespace Sys2Proof.Machine

/-- `jmp` resolves its operand and transfers to the value (R130). -/
theorem exec_jmp (a : Src) (s : State) :
    exec (.jmp a) s = withValue 6#16 a s fun t => .next (s.jump t) := rfl

/-- `ret` pops its target and transfers to it (R134). -/
theorem exec_ret (s : State) : exec .ret s = withPop 18#16 s fun t u => .next (u.jump t) := rfl

/-- `pop` with a legal destination is its pop, then the write of the register (R112). -/
theorem exec_pop_reg (r : RegIdx) (s : State) :
    exec (.pop (.reg r)) s = withPop 3#16 s fun v t => .next ((t.writeReg r v).advance 1) := rfl

/-- What is left of a stack that ends in `v` is what stands before `v` (R17). -/
theorem State.dropTop_of_concat {s : State} {st : List Word} {v : Word} (h : s.stack = st ++ [v]) :
    s.dropTop = { s with stack := st } := by
  rw [State.dropTop, h, List.dropLast_concat]

/-- Settles O13: the operand of `jmp` resolves to the target, or is the one thing that can fail. -/
theorem jmpTransfersToTarget : Obligations.JmpTransfersToTarget := by
  intro s a
  refine ⟨rfl, fun v hv => ?_, fun hillegal => ?_⟩
  · exact (exec_jmp a s).trans (withValue_of hv)
  · exact (exec_jmp a s).trans (withValue_invalid hillegal)

/-- Settles O22: a stack that ends in the target gives it to `ret`; on the empty stack the pop of `ret` and
of `pop` fails under the opcode of each. -/
theorem retPopsTargetOrUnderflows : Obligations.RetPopsTargetOrUnderflows := by
  intro s
  refine ⟨rfl, fun st v hstack => ?_, fun hempty => ⟨?_, fun r => ?_⟩⟩
  · rw [exec_ret, withPop_concat hstack, State.dropTop_of_concat hstack]
    rfl
  · exact (exec_ret s).trans (withPop_nil hempty)
  · exact (exec_pop_reg r s).trans (withPop_nil hempty)

end Sys2Proof.Machine
end

section
/-! PROOFS. Memory access (spec/45_memory_access.md R161): the execute phase of `wmem`. -/

namespace Sys2Proof.Machine

/-- `wmem` resolves the address, then the value, and stores the value's cell (R161, R94). -/
theorem exec_wmem (a b : Src) (s : State) :
    exec (.wmem a b) s = withValue 16#16 a s fun va => withValue 16#16 b s fun vb =>
      withStore 16#16 va.toNat (vb.setWidth 16) s fun t => .next (t.advance 2) := rfl

/-- With legal operands `wmem` completes: a resolved address is always in range (R45). -/
theorem exec_wmem_of {a b : Src} {s : State} {va vb : Word} (ha : Denotes a s va) (hb : Denotes b s vb) :
    exec (.wmem a b) s = .next ((s.storeCell va.toNat (vb.setWidth 16)).advance 2) := by
  rw [exec_wmem, withValue_of ha, withValue_of hb, withStore_word]

/-- An operand that has a value is legal (R66). -/
theorem Denotes.legal {o : Src} {s : State} {v : Word} (h : Denotes o s v) : o.legal = true := by
  cases o with
  | lit _ => rfl
  | reg _ => rfl
  | invalid _ => exact h.elim

/-- Either operand of `wmem` can be the illegal one, and the fault is the same (R94). -/
theorem wmem_faultsWith_invalidOperand {a b : Src} (s : State) (h : a.legal = false ∨ b.legal = false) :
    FaultsWith (.wmem a b) s .invalidOperand := by
  rw [FaultsWith, exec_wmem]
  rcases withValue_cases 16#16 a s _ with ⟨va, ha, hexec⟩ | ⟨-, hfault⟩
  · have hb : b.legal = false := h.resolve_left (by simp [Denotes.legal ha])
    exact hexec.trans (withValue_invalid hb)
  · exact hfault

/-- A Word stored as a cell (bit 15 zero) is read back at its address, and every other cell as before. -/
theorem Memory.toNat_read_write_word {m : Memory} (hm : m.wf) (va vb : Word) (n : Nat) :
    ((m.write va.toNat (vb.setWidth 16)).read n).toNat =
      if n = va.toNat then vb.toNat else (m.read n).toNat := by
  rw [Memory.read_write hm, apply_ite BitVec.toNat, BitVec.toNat_setWidth_of_le (by decide)]

/-- Settles O20: the only thing `wmem` writes besides `pc` is the cell at its address, by the rules of
`Memory.write`; an illegal operand is the one thing that can fail. -/
theorem wmemStoresWordAtAddress : Obligations.WmemStoresWordAtAddress := by
  intro s a b hm
  refine ⟨rfl, fun va vb ha hb => ?_, wmem_faultsWith_invalidOperand s⟩
  exact ⟨_, exec_wmem_of ha hb, Memory.write_wf va.isLt hm, Memory.toNat_read_write_word hm va vb, rfl⟩

end Sys2Proof.Machine
end

section
/-! PROOFS. System and I/O (spec/46_io_and_system.md R171, R176, R177): the execute phases of `noop` and `in`. -/

namespace Sys2Proof.Machine

/-- `noop` goes on after its one word (R171). -/
theorem exec_noop (s : State) : exec .noop s = .next (s.advance 0) := rfl

/-- Settles O24: the encoder gives the opcode alone, and the next address is one past it for every `pc`. -/
theorem noopOnlyAdvances : Obligations.NoopOnlyAdvances := fun s => ⟨rfl, exec_noop s⟩

/-- A character in `inbuf` is taken without asking the line source (R177). -/
theorem readChar_of_inbuf_cons {s : State} {c : Word} {rest : List Word} (h : s.inbuf = c :: rest) :
    readChar s = .char c { s with inbuf := rest } := by
  simp [readChar, h]

/-- An empty `inbuf` gets the whole line, then its first character is taken (R177). -/
theorem readChar_of_line_cons {s : State} {c : Word} {rest : List Word} {more : List LineAnswer}
    (hinbuf : s.inbuf = []) (hlines : s.lines = .line (c :: rest) :: more) :
    readChar s = .char c { s with inbuf := rest, lines := more } := by
  simp [readChar, hinbuf, hlines]

/-- An empty `inbuf` finds the line source without a line (R177). -/
theorem readChar_of_noLine {s : State} {more : List LineAnswer}
    (hinbuf : s.inbuf = []) (hlines : s.lines = .noLine :: more) : readChar s = .exhausted := by
  simp [readChar, hinbuf, hlines]

/-- `in` with a legal destination writes the character it reads and goes on after its two words (R176). -/
theorem exec_inp_reg_of_char {r : RegIdx} {s t : State} {c : Word} (h : readChar s = .char c t) :
    exec (.inp (.reg r)) s = .next ((t.writeReg r c).advance 1) := by
  simp [exec, execIn, h]

/-- `in` with a legal destination hands on that there is no line (R176). -/
theorem inp_reg_faultsWith_inputExhausted {r : RegIdx} {s : State} (h : readChar s = .exhausted) :
    FaultsWith (.inp (.reg r)) s .inputExhausted := by
  simp [FaultsWith, exec, execIn, h, raise_eq, State.faulted, Instr.opcode]

/-- Settles O26, by what `readChar` answers in each of its three cases. -/
theorem inTakesNextCharacter : Obligations.InTakesNextCharacter := by
  intro s r
  refine ⟨fun c rest hinbuf => ?_, fun c rest more hinbuf hlines => ?_, fun more hinbuf hlines => ?_⟩
  · exact exec_inp_reg_of_char (readChar_of_inbuf_cons hinbuf)
  · exact exec_inp_reg_of_char (readChar_of_line_cons hinbuf hlines)
  · exact inp_reg_faultsWith_inputExhausted (readChar_of_noLine hinbuf hlines)

end Sys2Proof.Machine
end

section
/-! PROOFS. The checkpoint (spec/47_checkpoint_calibration.md R191 to R195): what `restore` replaces, and that a
checkpoint, once there, is the one every later step finds. -/

namespace Sys2Proof.Machine

/-- Settles O45, by the `some` branch of `restore`. -/
theorem restoreReplacesFiveSubstates : Obligations.RestoreReplacesFiveSubstates :=
  fun s c hcp => State.restore_some s c hcp

/-- The controller keeps an existing checkpoint: of its actions only arming captures, and a second capture
changes nothing (R191, decision D22). -/
theorem controllerBoundary_cp {t : State} {c : Checkpoint} (hcp : t.cp = some c) :
    (controllerBoundary t).cp = some c := by
  rcases controllerBoundary_cases t with e | ⟨-, -, -, e⟩ | ⟨-, -, e⟩ | ⟨-, -, -, -, e⟩ | ⟨-, -, -, -, e⟩ <;>
    rw [e]
  · exact hcp
  · rw [State.arm_cp, State.capture_cp_some t c hcp, hcp]
  · rw [State.accept_cp, hcp]
  · rw [State.exhaust_cp, hcp]
  · rw [State.retry_cp, hcp]

/-- Every step, completed or faulted, keeps an existing checkpoint. -/
theorem step_cp {s s' : State} {c : Checkpoint} (hcp : s.cp = some c) (hstep : step s = .next s') :
    s'.cp = some c := by
  obtain ⟨-, ⟨k, op, rfl⟩ | ⟨i, t, -, hcommits, rfl⟩⟩ := step_next_cases hstep
  · rw [State.faulted_cp, hcp]
  · have ht : t.cp = some c := (commits_controller hcommits).1.trans hcp
    rcases boundaryAction_cases i t with e | ⟨-, -, -, -, e⟩ <;> rw [e]
    · exact ht
    · exact controllerBoundary_cp ht

/-- A run of one step more that gets to `t` took a step, and the rest of the run gets to `t` from there. -/
theorem run_succ_next {M : Host.Core} {k : Nat} {s t : M.State} (hrun : M.run (k + 1) s = .next t) :
    ∃ s', M.step s = .next s' ∧ M.run k s' = .next t := by
  unfold Host.Core.run at hrun
  split at hrun
  · next s' hstep => exact ⟨s', hstep, hrun⟩
  · cases hrun
  · cases hrun

/-- A property that every step keeps is kept by any number of steps. -/
theorem run_keeps {M : Host.Core} {P : M.State → Prop}
    (hkeeps : ∀ {s s' : M.State}, P s → M.step s = .next s' → P s')
    {k : Nat} {s t : M.State} (hs : P s) (hrun : M.run k s = .next t) : P t := by
  induction k generalizing s with
  | zero => cases hrun; exact hs
  | succ k ih =>
    obtain ⟨s', hstep, hrest⟩ := run_succ_next hrun
    exact ih (hkeeps hs hstep) hrest

/-- Restoring a checkpoint that was captured at `s` gives back the substates of `s` (R192, R195). -/
theorem sameCaptured_restore_of_snapshot {s t : State} (hcp : t.cp = some s.snapshot) :
    SameCaptured s t.restore := by
  rw [State.restore_some t _ hcp]
  exact ⟨rfl, rfl, rfl, rfl, rfl⟩

/-- A capture changes none of the substates that a snapshot takes (R190). -/
theorem State.snapshot_capture (s : State) : s.capture.snapshot = s.snapshot := by
  simp [State.snapshot]

/-- Settles O46: the capture stores its snapshot, every step of the run keeps it, and restoring it gives the
captured substates back. -/
theorem restoreReturnsToCapture : Obligations.RestoreReturnsToCapture := by
  intro s t k hnone hrun
  have hcaptured : s.capture.cp = some s.capture.snapshot := by
    rw [State.snapshot_capture, s.capture_cp_none hnone]
  have hcp : t.cp = some s.capture.snapshot := run_keeps step_cp hcaptured hrun
  exact sameCaptured_restore_of_snapshot hcp

end Sys2Proof.Machine
end

section
/-! PROOFS. Exceptions (spec/60_exceptions.md R231): the fault of a fetch whose opcode is outside the map. -/

namespace Sys2Proof.Machine

/-- With `pc` in memory a fetch reads the cell at `pc` first, then at most three more (R92, R60). -/
theorem fetchWindow_eq_cons {s : State} (hpc : s.pc.toNat ≤ 32767) :
    s.mem.window s.pc.toNat 4 = opcodeCell s :: s.mem.window (s.pc.toNat + 1) 3 := by
  rw [Memory.window_succ, if_pos hpc, opcodeCell]

/-- The fetch passes on the decoder's rejection of an opcode above 21 (R65). -/
theorem fetch_illegal {s : State} (hpc : s.pc.toNat ≤ 32767) (hop : 21 < (opcodeCell s).toNat) :
    fetch s = .error (.illegalOpcode (opcodeCell s)) := by
  rw [fetch, fetchWindow_eq_cons hpc, decode_illegal hop]

/-- A step whose fetch fails answers with the fault of that fetch, and executes nothing (R91). -/
theorem step_of_fetch_error {s : State} {e : DecodeError} (hs : s.status = .running)
    (hfetch : fetch s = .error e) : step s = raiseFetch e s := by
  rw [step_running hs, hfetch]

/-- Settles O29: the decoder rejects the first word by name, and the step answers with that fault. -/
theorem illegalOpcodeFaults : Obligations.IllegalOpcodeFaults :=
  fun _ hs hpc hop => step_of_fetch_error hs (fetch_illegal hpc hop)

end Sys2Proof.Machine
end

section
/-! PROOFS. The decoder and the encoder (spec/30_encoding.md R60 to R68) invert each other, and the register that
an operand cell of mode R names. -/

namespace Sys2Proof.Machine

/-- Reading an instruction's words gives it back when rereading each operand's cell gives the operand back. -/
theorem decode_encode_of_reread (i : Instr) (rest : List Cell)
    (hd : ∀ o ∈ i.dsts, dstOfCell (cellOfDst o) = o) (hs : ∀ o ∈ i.srcs, srcOfCell (cellOfSrc o) = o) :
    decode (encode i ++ rest) = .ok (i, rest) := by
  cases i with
  | halt | ret | noop => rfl
  | push _ | jmp _ | call _ | out _ =>
    simp [encode, Instr.opcode, Instr.dsts, Instr.srcs, decode, decodeOpcode, takeOne, hs _ List.mem_cons_self]
  | pop _ | inp _ =>
    simp [encode, Instr.opcode, Instr.dsts, Instr.srcs, decode, decodeOpcode, takeOne, hd _ List.mem_cons_self]
  | jt _ _ | jf _ _ | wmem _ _ =>
    simp only [Instr.srcs, List.forall_mem_cons] at hs
    simp [encode, Instr.opcode, Instr.dsts, Instr.srcs, decode, decodeOpcode, takeTwo, hs]
  | set _ _ | not _ _ | rmem _ _ =>
    simp [encode, Instr.opcode, Instr.dsts, Instr.srcs, decode, decodeOpcode, takeTwo,
      hd _ List.mem_cons_self, hs _ List.mem_cons_self]
  | eq _ _ _ | gt _ _ _ | add _ _ _ | mult _ _ _ | mod _ _ _ | and _ _ _ | or _ _ _ =>
    simp only [Instr.srcs, List.forall_mem_cons] at hs
    simp [encode, Instr.opcode, Instr.dsts, Instr.srcs, decode, decodeOpcode, takeThree,
      hd _ List.mem_cons_self, hs]

/-- Settles O1: the cell of every operand that meets its check is reread as that operand. -/
theorem decodeInvertsEncode : Obligations.DecodeInvertsEncode := by
  intro i rest hwf
  simp only [Instr.wf, Bool.and_eq_true, List.all_eq_true] at hwf
  obtain ⟨hd, hs⟩ := hwf
  exact decode_encode_of_reread i rest (fun o ho => dstOfCell_cellOfDst (hd o ho))
    (fun o ho => srcOfCell_cellOfSrc (hs o ho))

/-- Settles O5: each of the eleven lists is the encoding of the instruction named. -/
theorem specWordsDecodeAsWritten : Obligations.SpecWordsDecodeAsWritten :=
  ⟨decodeInvertsEncode (.add (.reg 0) (.lit 4) (.lit 5)) [] rfl,
    decodeInvertsEncode (.jmp (.lit 4)) [] rfl,
    decodeInvertsEncode (.call (.lit 4)) [] rfl,
    decodeInvertsEncode (.out (.lit 65)) [] rfl,
    decodeInvertsEncode (.set (.reg 1) (.reg 0)) [] rfl,
    decodeInvertsEncode (.wmem (.reg 2) (.lit 32767)) [] rfl,
    decodeInvertsEncode (.inp (.reg 7)) [] rfl,
    decodeInvertsEncode .ret [] rfl,
    decodeInvertsEncode (.eq (.reg 0) (.reg 1) (.lit 4)) [] rfl,
    decodeInvertsEncode (.push (.reg 0)) [] rfl,
    decodeInvertsEncode (.set (.reg 0) (.invalid 32776)) [] rfl⟩

/-- The operand cells of an instruction, in the order a, b, c (R60). -/
def operandCells (i : Instr) : List Cell := i.dsts.map cellOfDst ++ i.srcs.map cellOfSrc

/-- What the decoder answers for the cells `ws` after an opcode, if it accepts them, is well-formed, and its
operand cells are those it took from `ws`. -/
def ReadsBack (ws : List Cell) (d : Except DecodeError (Instr × List Cell)) : Prop :=
  ∀ i rest, d = .ok (i, rest) → i.wf = true ∧ operandCells i ++ rest = ws

theorem ok_readsBack {i : Instr} (ws : List Cell) (h : i.wf = true ∧ operandCells i = []) :
    ReadsBack ws (.ok (i, ws)) := by
  rintro _ _ ⟨⟩
  exact ⟨h.1, by rw [h.2, List.nil_append]⟩

theorem takeOne_readsBack {op : Cell} {k : Cell → Instr} (ws : List Cell)
    (h : ∀ wa, (k wa).wf = true ∧ operandCells (k wa) = [wa]) : ReadsBack ws (takeOne op k ws) := by
  intro i rest hd
  unfold takeOne at hd
  split at hd <;> cases hd
  exact ⟨(h _).1, by rw [(h _).2]; rfl⟩

theorem takeTwo_readsBack {op : Cell} {k : Cell → Cell → Instr} (ws : List Cell)
    (h : ∀ wa wb, (k wa wb).wf = true ∧ operandCells (k wa wb) = [wa, wb]) :
    ReadsBack ws (takeTwo op k ws) := by
  intro i rest hd
  unfold takeTwo at hd
  split at hd <;> cases hd
  exact ⟨(h _ _).1, by rw [(h _ _).2]; rfl⟩

theorem takeThree_readsBack {op : Cell} {k : Cell → Cell → Cell → Instr} (ws : List Cell)
    (h : ∀ wa wb wc, (k wa wb wc).wf = true ∧ operandCells (k wa wb wc) = [wa, wb, wc]) :
    ReadsBack ws (takeThree op k ws) := by
  intro i rest hd
  unfold takeThree at hd
  split at hd <;> cases hd
  exact ⟨(h _ _ _).1, by rw [(h _ _ _).2]; rfl⟩

/-- Every row of the opcode map classifies each operand cell by its mode, which loses nothing of it (R68). -/
theorem decodeOpcode_readsBack (op : Cell) (ws : List Cell) : ReadsBack ws (decodeOpcode op ws) := by
  have hcells := And.intro cellOfSrc_srcOfCell cellOfDst_dstOfCell
  have hwf := And.intro srcOfCell_wf dstOfCell_wf
  unfold decodeOpcode
  split
  case h_23 => rintro _ _ ⟨⟩
  case h_1 | h_19 | h_22 => exact ok_readsBack ws ⟨rfl, rfl⟩
  case h_3 | h_4 | h_7 | h_18 | h_20 | h_21 =>
    exact takeOne_readsBack ws fun _ => by simp [Instr.wf, operandCells, Instr.dsts, Instr.srcs, hwf, hcells]
  case h_2 | h_8 | h_9 | h_15 | h_16 | h_17 =>
    exact takeTwo_readsBack ws fun _ _ => by simp [Instr.wf, operandCells, Instr.dsts, Instr.srcs, hwf, hcells]
  all_goals
    exact takeThree_readsBack ws fun _ _ _ => by simp [Instr.wf, operandCells, Instr.dsts, Instr.srcs, hwf, hcells]

/-- Settles O2: the opcode cell is the instruction's opcode, and the operand cells are read back. -/
theorem encodeInvertsDecode : Obligations.EncodeInvertsDecode := by
  intro cells i rest hd
  cases cells with
  | nil => cases hd
  | cons op ws =>
    obtain ⟨hwf, hcells⟩ := decodeOpcode_readsBack op ws i rest hd
    refine ⟨hwf, ?_⟩
    calc encode i ++ rest = i.opcode :: (operandCells i ++ rest) := rfl
      _ = op :: ws := by rw [opcode_of_decode hd, hcells]

theorem dstOfCell_of_eq_reg {w : Cell} {r : RegIdx} (h : w.toNat = 32768 + r.val) :
    dstOfCell w = .reg r := by
  have hw : w = cellOfDst (.reg r) := BitVec.eq_of_toNat_eq (h.trans (regCell_toNat r).symm)
  rw [hw, dstOfCell_cellOfDst rfl]

/-- Every cell but the eight register encodings is invalid for mode R (R67, decision D7). -/
theorem dstOfCell_of_not_reg {w : Cell} (h : w.toNat ≤ 32767 ∨ 32775 < w.toNat) :
    dstOfCell w = .invalid w := by
  rcases dstOfCell_cases w with ⟨-, hw⟩ | ⟨r, hr, -⟩ | ⟨-, hw⟩
  · exact hw
  · omega
  · exact hw

/-- Settles O7, by the ranges of R67. -/
theorem destClassifiesCells : Obligations.DestClassifiesCells := by
  intro w op s k
  refine ⟨fun r h => ?_, fun h => ?_⟩
  · rw [dstOfCell_of_eq_reg h, withDest_reg]
  · rw [dstOfCell_of_not_reg h]
    exact withDest_invalid rfl

end Sys2Proof.Machine
end

section
/-! PROOFS. The fetch (spec/40_execution_cycle.md R92, R93): the cells it reads, the instruction it finds there, and
the fault it raises past address 32767. -/

namespace Sys2Proof.Machine

/-- The k-th cell a fetch sees is the cell at `a + k`, if that is an address (R92, R93). -/
theorem Memory.getElem?_window (m : Memory) (n a k : Nat) :
    (m.window a n)[k]? = if k < n ∧ a + k ≤ 32767 then some (m.read (a + k)) else none := by
  induction n generalizing a k with
  | zero => simp [Memory.window]
  | succ n ih =>
    rw [Memory.window_succ]
    by_cases ha : a ≤ 32767
    · cases k with
      | zero => simp [ha]
      | succ k => simp [ha, ih, Nat.add_assoc, Nat.add_comm 1 k]
    · rw [if_neg ha, if_neg (by omega), List.getElem?_nil]

/-- The fetch of an instruction found its words at `pc`. -/
theorem window_of_fetch {s : State} {i : Instr} (h : fetch s = .ok i) :
    ∃ rest, encode i ++ rest = s.mem.window s.pc.toNat 4 := by
  unfold fetch at h
  split at h
  · next j rest hd =>
    cases h
    exact ⟨rest, (encodeInvertsDecode _ _ _ hd).2⟩
  · cases h

/-- Every word of a fetched instruction is in memory, at its place after `pc`. -/
theorem word_of_fetch {s : State} {i : Instr} {k : Nat} {w : Cell} (h : fetch s = .ok i)
    (hw : (encode i)[k]? = some w) : s.pc.toNat + k ≤ 32767 ∧ s.mem.read (s.pc.toNat + k) = w := by
  obtain ⟨rest, hwin⟩ := window_of_fetch h
  have hk : (s.mem.window s.pc.toNat 4)[k]? = some w := by
    rw [← hwin, List.getElem?_append_left (List.getElem?_eq_some_iff.1 hw).1, hw]
  rw [Memory.getElem?_window] at hk
  split at hk
  · next hin => exact ⟨hin.2, Option.some.inj hk⟩
  · cases hk

/-- A fetched instruction ends inside memory (R93). -/
theorem pc_add_operandCount_le {s : State} {i : Instr} (h : fetch s = .ok i) :
    s.pc.toNat + i.operandCount ≤ 32767 := by
  have hlt : i.operandCount < (encode i).length := by rw [length_encode]; omega
  exact (word_of_fetch h (List.getElem?_eq_getElem hlt)).1

/-- The four cells of a fetch hold the longest instruction (R60). -/
theorem operandCount_le (i : Instr) : i.operandCount ≤ 3 := by
  have hcounts : ∀ n ∈ operandCounts, n ≤ 3 := by decide
  exact hcounts _ (List.mem_of_getElem? (operandCounts_opcode i))

/-- Where the words of a well-formed instruction stand at `pc`, the fetch finds it. -/
theorem fetch_of_words {s : State} {i : Instr} (hwf : i.wf = true)
    (hend : s.pc.toNat + i.operandCount ≤ 32767)
    (hwords : ∀ k, k ≤ i.operandCount → (encode i)[k]? = some (s.mem.read (s.pc.toNat + k))) :
    fetch s = .ok i := by
  have htake : (s.mem.window s.pc.toNat 4).take (encode i).length = encode i := by
    apply List.ext_getElem?
    intro k
    have hlen := length_encode i
    have hcount := operandCount_le i
    rw [List.getElem?_take]
    split
    · rw [Memory.getElem?_window, if_pos (by omega), hwords k (by omega)]
    · rw [List.getElem?_eq_none (by omega)]
  rw [fetch, ← List.take_append_drop (encode i).length (s.mem.window s.pc.toNat 4), htake,
    decodeInvertsEncode i _ hwf]

theorem step_of_fetch {s : State} {i : Instr} (hs : s.status = .running) (hfetch : fetch s = .ok i) :
    step s = afterExec i (exec i s) := by
  rw [step_running hs, hfetch]

/-- Settles O28: the fetch finds the instruction whose words stand at `pc`. -/
theorem stepRunsInstructionAtPc : Obligations.StepRunsInstructionAtPc := by
  intro s i hs hwf hend hwords
  rw [step_of_fetch hs (fetch_of_words hwf hend hwords)]
  cases exec i s <;> rfl

/-- Outside memory there is no cell for the opcode (R92). -/
theorem fetch_noOpcodeCell {s : State} (hpc : 32767 < s.pc.toNat) : fetch s = .error .noOpcodeCell := by
  rw [fetch, Memory.window_succ, if_neg (by omega), decode]

/-- An instruction whose operand cells would run past address 32767 is not fetched (R93). -/
theorem fetch_missingOperandCell {s : State} {n : Nat} (hpc : s.pc.toNat ≤ 32767)
    (hend : 32767 < s.pc.toNat + n) (hn : operandCounts[(opcodeCell s).toNat]? = some n) :
    fetch s = .error (.missingOperandCell (opcodeCell s)) := by
  have hshort : (s.mem.window (s.pc.toNat + 1) 3).length < n := by
    rw [Memory.window_length _ _ _ (by omega)]
    omega
  rw [fetch, fetchWindow_eq_cons hpc, (decode_consumesExactly _ hn).2 hshort]

/-- Settles O30: neither fetch finds all the cells it needs. -/
theorem fetchPastMemoryEndFaults : Obligations.FetchPastMemoryEndFaults := by
  intro s hs
  refine ⟨fun hpc => ?_, fun n hpc hend hn => ?_⟩
  · exact step_of_fetch_error hs (fetch_noOpcodeCell hpc)
  · exact step_of_fetch_error hs (fetch_missingOperandCell hpc hend hn)

/-- The opcode of a fault record: the cell at `pc`, or none when `pc` is outside memory (R21, decision D31). -/
def recordedOpcode (s : State) : Option Cell :=
  if s.pc.toNat ≤ 32767 then some (opcodeCell s) else none

/-- With an opcode cell, the decoder's rejection names that cell. -/
theorem decode_cons_error {op : Cell} {ws : List Cell} {e : DecodeError} (h : decode (op :: ws) = .error e) :
    e = .illegalOpcode op ∨ e = .missingOperandCell op := by
  by_cases hop : 21 < op.toNat
  · rw [decode_illegal hop] at h
    cases h
    exact .inl rfl
  · have hlt : op.toNat < operandCounts.length := Nat.lt_succ_of_le (Nat.le_of_not_lt hop)
    obtain ⟨hok, hmissing⟩ := decode_consumesExactly ws (List.getElem?_eq_getElem hlt)
    rcases Nat.lt_or_ge ws.length operandCounts[op.toNat] with hlen | hlen
    · rw [hmissing hlen] at h
      cases h
      exact .inr rfl
    · obtain ⟨i, hi⟩ := hok hlen
      rw [hi] at h
      cases h

/-- A failed fetch raises a fault that records the opcode cell, if there is one (R92, R93). -/
theorem raiseFetch_of_fetch {s : State} {e : DecodeError} (h : fetch s = .error e) :
    ∃ k, raiseFetch e s = .next (s.faulted k (recordedOpcode s)) := by
  by_cases hpc : s.pc.toNat ≤ 32767
  · have hd : decode (opcodeCell s :: s.mem.window (s.pc.toNat + 1) 3) = .error e := by
      unfold fetch at h
      rw [fetchWindow_eq_cons hpc] at h
      split at h
      · cases h
      · next hd => rw [hd, Except.error.inj h]
    rw [recordedOpcode, if_pos hpc]
    rcases decode_cons_error hd with rfl | rfl
    · exact ⟨.illegalOpcode, rfl⟩
    · exact ⟨.addressOutOfRange, rfl⟩
  · rw [fetch_noOpcodeCell (Nat.lt_of_not_le hpc)] at h
    cases h
    exact ⟨.addressOutOfRange, by rw [recordedOpcode, if_neg hpc]; rfl⟩

/-- The record of a fault of a fetched instruction holds its opcode. -/
theorem recordedOpcode_of_fetch {s : State} {i : Instr} (h : fetch s = .ok i) :
    recordedOpcode s = some i.opcode := by
  obtain ⟨hop, hpc⟩ := opcode_of_fetch h
  rw [recordedOpcode, if_pos hpc, hop]

end Sys2Proof.Machine
end

section
/-! PROOFS. Operand validation (spec/40_execution_cycle.md R94, spec/60_exceptions.md R232): an illegal operand, used
or not, is the fault of every instruction. -/

namespace Sys2Proof.Machine

section

variable {op : Cell} {s : State}

/-- An instruction that raises InvalidOperand after a legal operand of mode L raises it for an illegal one too. -/
theorem withValue_eq_invalid {o : Src} {k : Word → Result}
    (h : o.legal = true → ∀ v, k v = .next (s.faulted .invalidOperand (some op))) :
    withValue op o s k = .next (s.faulted .invalidOperand (some op)) := by
  rcases withValue_cases op o s k with ⟨v, hv, e⟩ | ⟨-, e⟩
  · exact e.trans (h hv.legal v)
  · exact e

/-- An instruction that raises InvalidOperand after a legal operand of mode R raises it for an illegal one too. -/
theorem withDest_eq_invalid {o : Dst} {k : RegIdx → Result}
    (h : o.legal = true → ∀ r, k r = .next (s.faulted .invalidOperand (some op))) :
    withDest op o s k = .next (s.faulted .invalidOperand (some op)) := by
  rcases withDest_cases op o s k with ⟨r, rfl, e⟩ | ⟨-, e⟩
  · exact e.trans (h rfl r)
  · exact e

theorem unary_invalid {f : Word → Word} {a : Dst} {b : Src} (h : a.legal = true → b.legal = false) :
    unary op f a b s = .next (s.faulted .invalidOperand (some op)) :=
  withDest_eq_invalid fun ha _ => withValue_invalid (h ha)

theorem binary_invalid {f : Word → Word → Word} {a : Dst} {b c : Src}
    (h : a.legal = true → b.legal = true → c.legal = false) :
    binary op f a b c s = .next (s.faulted .invalidOperand (some op)) :=
  withDest_eq_invalid fun ha _ => withValue_eq_invalid fun hb _ => withValue_invalid (h ha hb)

end

/-- Settles O8: the operands are validated in the order a, b, c before anything else (R94). -/
theorem illegalOperandAlwaysFaults : Obligations.IllegalOperandAlwaysFaults := by
  intro i s h
  cases i with
  | halt | ret | noop => cases h
  | push _ | jmp _ | call _ | out _ =>
    exact withValue_invalid (by simpa [Instr.operandsLegal, Instr.dsts, Instr.srcs] using h)
  | pop _ | inp _ =>
    exact withDest_invalid (by simpa [Instr.operandsLegal, Instr.dsts, Instr.srcs] using h)
  | set _ _ | not _ _ =>
    exact unary_invalid (by simpa [Instr.operandsLegal, Instr.dsts, Instr.srcs] using h)
  | rmem _ _ =>
    have hlegal := by simpa [Instr.operandsLegal, Instr.dsts, Instr.srcs] using h
    exact withDest_eq_invalid fun ha _ => withValue_invalid (hlegal ha)
  | jt _ _ | jf _ _ | wmem _ _ =>
    have hlegal := by simpa [Instr.operandsLegal, Instr.dsts, Instr.srcs] using h
    exact withValue_eq_invalid fun ha _ => withValue_invalid (hlegal ha)
  | mod _ _ _ =>
    have hlegal := by simpa [Instr.operandsLegal, Instr.dsts, Instr.srcs] using h
    exact withDest_eq_invalid fun ha _ => withValue_eq_invalid fun hb _ => withValue_invalid (hlegal ha hb)
  | eq _ _ _ | gt _ _ _ | add _ _ _ | mult _ _ _ | and _ _ _ | or _ _ _ =>
    exact binary_invalid (by simpa [Instr.operandsLegal, Instr.dsts, Instr.srcs] using h)

end Sys2Proof.Machine
end

section
/-! PROOFS. The instructions one by one with legal operands (spec/41 to spec/46): data movement, comparison, control
transfer, arithmetic and logic, memory access, system and I/O. -/

namespace Sys2Proof.Machine

/-- Settles O9: `set` is the unary form with the value itself. -/
theorem setCopiesResolvedValue : Obligations.SetCopiesResolvedValue :=
  fun _ _ _ _ hb => unary_of hb

/-- Settles O11: a stack that ends in a value gives it to `pop`; the empty stack is the one thing that can fail. -/
theorem popTakesTopOrUnderflows : Obligations.PopTakesTopOrUnderflows := by
  intro s r
  refine ⟨fun st v hstack => ?_, fun hempty => ?_⟩
  · rw [exec_pop_reg, withPop_concat hstack, State.dropTop_of_concat hstack]
    rfl
  · exact (exec_pop_reg r s).trans (withPop_nil hempty)

theorem eqWord_eq (b c : Word) : eqWord b c = if b = c then 1#15 else 0#15 := by
  simp [eqWord, truthWord]

theorem gtWord_eq (b c : Word) : gtWord b c = if c.toNat < b.toNat then 1#15 else 0#15 := by
  simp [gtWord, truthWord]

/-- Settles O12: `eq` and `gt` are the binary form with the truth value of their comparison. -/
theorem compareWritesOneOrZero : Obligations.CompareWritesOneOrZero := by
  intro s r b c vb vc hb hc
  rw [← eqWord_eq, ← gtWord_eq]
  exact ⟨binary_of hb hc, binary_of hb hc⟩

theorem exec_jt_of {a b : Src} {s : State} {va vb : Word} (ha : Denotes a s va) (hb : Denotes b s vb) :
    exec (.jt a b) s = .next (if nonzero va then s.jump vb else s.advance 2) :=
  (withValue_of ha).trans (withValue_of hb)

theorem exec_jf_of {a b : Src} {s : State} {va vb : Word} (ha : Denotes a s va) (hb : Denotes b s vb) :
    exec (.jf a b) s = .next (if nonzero va then s.advance 2 else s.jump vb) :=
  (withValue_of ha).trans (withValue_of hb)

/-- Settles O14, by whether the tested value is 0. -/
theorem conditionalJumpsTestTheirOperand : Obligations.ConditionalJumpsTestTheirOperand := by
  intro s a b va vb ha hb
  rw [exec_jt_of ha hb, exec_jf_of ha hb]
  by_cases h0 : va = 0#15
  · simp [nonzero, h0, State.jump, State.advance, State.next]
  · simp [nonzero, h0, State.jump, State.advance, State.next]

theorem toNat_addWord (b c : Word) : (addWord b c).toNat = (b.toNat + c.toNat) % 32768 := by
  rw [addWord, BitVec.toNat_ofNat, Nat.mod_mod]

theorem toNat_multWord (b c : Word) : (multWord b c).toNat = (b.toNat * c.toNat) % 32768 := by
  rw [multWord, BitVec.toNat_ofNat, Nat.mod_mod]

/-- The remainder is at most the dividend, so it is a Word (R142). -/
theorem toNat_modWord (b c : Word) : (modWord b c).toNat = b.toNat % c.toNat := by
  have hlt : b.toNat % c.toNat < 32768 := (Nat.mod_le _ _).trans_lt b.isLt
  rw [modWord, BitVec.toNat_ofNat, Nat.mod_mod, Nat.mod_eq_of_lt hlt]

/-- Settles O15, by the exact values of the two results. -/
theorem addAndMultReduceExactResult : Obligations.AddAndMultReduceExactResult :=
  fun _ _ _ _ vb vc hb hc =>
    ⟨⟨addWord vb vc, toNat_addWord vb vc, binary_of hb hc⟩, ⟨multWord vb vc, toNat_multWord vb vc, binary_of hb hc⟩⟩

/-- With legal operands `mod` is decided by its divisor (R142, decision D6). -/
theorem exec_mod_of {r : RegIdx} {b c : Src} {s : State} {vb vc : Word} (hb : Denotes b s vb)
    (hc : Denotes c s vc) : exec (.mod (.reg r) b c) s =
      if vc = 0#15 then raise .divideByZero (some 11#16) s
      else .next ((s.writeReg r (modWord vb vc)).advance 3) := by
  simp only [exec, execMod, withDest_reg, withValue_of hb, withValue_of hc]

/-- Settles O16, by whether the divisor is 0. -/
theorem modWritesRemainderOrFaults : Obligations.ModWritesRemainderOrFaults := by
  intro s r b c vb vc hb hc
  refine ⟨fun h0 => ⟨modWord vb vc, toNat_modWord vb vc, ?_⟩, fun h0 => ?_⟩
  · exact (exec_mod_of hb hc).trans (if_neg h0)
  · exact (exec_mod_of hb hc).trans (if_pos h0)

/-- Settles O17: the results are the bitwise operations of `BitVec`. -/
theorem andOrActBitwise : Obligations.AndOrActBitwise :=
  fun _ _ _ _ vb vc hb hc =>
    ⟨⟨andWord vb vc, fun _ _ => BitVec.getLsbD_and, binary_of hb hc⟩,
      ⟨orWord vb vc, fun _ _ => BitVec.getLsbD_or, binary_of hb hc⟩⟩

/-- 32767 - b is b with its 15 bits inverted (R145). -/
theorem notWord_eq (b : Word) : notWord b = ~~~b := by
  apply BitVec.eq_of_toNat_eq
  rw [notWord, BitVec.toNat_ofNat, BitVec.toNat_not]
  omega

/-- Settles O18: `not` is the unary form with the one's complement. -/
theorem notComplementsFifteenBits : Obligations.NotComplementsFifteenBits := by
  intro s r b vb hb
  refine ⟨notWord vb, ?_, fun k hk => ?_, unary_of hb⟩
  · rw [notWord_eq, BitVec.toNat_not]
  · rw [notWord_eq, BitVec.getLsbD_not, decide_eq_true hk, Bool.true_and]

/-- With legal operands `rmem` is decided by the cell at its address (R160, decision D8). -/
theorem exec_rmem_of {r : RegIdx} {b : Src} {s : State} {vb : Word} (hb : Denotes b s vb) :
    exec (.rmem (.reg r) b) s =
      if (s.mem.read vb.toNat).toNat > 32767 then raise .nonWordValue (some 15#16) s
      else .next ((s.writeReg r ((s.mem.read vb.toNat).setWidth 15)).advance 2) := by
  simp only [exec, execRmem, withDest_reg, withValue_of hb, withCell_word]

/-- Settles O19, by whether the cell holds a Word. -/
theorem rmemReadsCellOrFaults : Obligations.RmemReadsCellOrFaults := by
  intro s r b vb hb
  refine ⟨fun hword => ⟨_, toNat_setWidth_word hword, ?_⟩, fun hbig => ?_⟩
  · exact (exec_rmem_of hb).trans (if_neg (Nat.not_lt_of_le hword))
  · exact (exec_rmem_of hb).trans (if_pos hbig)

/-- A Word widened to a cell and cut to a Word again is the same Word (R43, R160). -/
theorem setWidth_setWidth_word (v : Word) : ((v.setWidth 16 : Cell).setWidth 15 : Word) = v := by
  rw [BitVec.setWidth_setWidth_of_le _ (by decide), BitVec.setWidth_eq]

/-- Settles O42: `rmem` finds the cell that `wmem` wrote, which holds a Word. -/
theorem wmemThenRmemReturnsWord : Obligations.WmemThenRmemReturnsWord := by
  intro s a v r hm
  have hwrite := exec_wmem_of (s := s) (a := .lit a) (b := .lit v) rfl rfl
  have hcell : ((s.storeCell a.toNat (v.setWidth 16)).advance 2).mem.read a.toNat = v.setWidth 16 :=
    Memory.read_write_same hm
  have hread := exec_rmem_of (r := r) (b := .lit a) (vb := a)
    (s := (s.storeCell a.toNat (v.setWidth 16)).advance 2) rfl
  have hword : ¬ (v.setWidth 16 : Cell).toNat > 32767 := by
    rw [BitVec.toNat_setWidth_of_le (by decide)]
    exact Nat.not_lt_of_le (word_le v)
  rw [hcell, if_neg hword, setWidth_setWidth_word] at hread
  exact ⟨_, _, hwrite, hread, by simp⟩

/-- With a legal target `call` is decided by its return address (R133, decision D9). -/
theorem exec_call_of {a : Src} {s : State} {v : Word} (ha : Denotes a s v) : exec (.call a) s =
    if s.next 1 > 32767 then raise .addressOutOfRange (some 17#16) s
    else .next ((s.push (BitVec.ofNat 15 (s.next 1))).jump v) :=
  withValue_of ha

/-- Settles O21, by whether the return address is a Word. -/
theorem callPushesReturnAddress : Obligations.CallPushesReturnAddress := by
  intro s a v ha
  refine ⟨fun hle => ⟨BitVec.ofNat 15 (s.pc.toNat + 2), ?_, ?_⟩, fun hgt => ?_⟩
  · rw [BitVec.toNat_ofNat, Nat.mod_eq_of_lt (by omega)]
  · exact (exec_call_of ha).trans (if_neg (Nat.not_lt_of_le hle))
  · exact (exec_call_of ha).trans (if_pos hgt)

/-- Settles O23: the execute phase of `halt` is these two writes. -/
theorem haltEndsRun : Obligations.HaltEndsRun := fun _ => rfl

/-- With a legal operand `out` appends its value and goes on after its two words (R174). -/
theorem exec_out_of {a : Src} {s : State} {v : Word} (ha : Denotes a s v) :
    exec (.out a) s = .next ((s.writeChar v).advance 1) :=
  withValue_of ha

/-- Settles O25, by the value of the operand. -/
theorem outAppendsCode : Obligations.OutAppendsCode := fun _ _ _ ha => exec_out_of ha

/-- An empty line is no line (R178, decision D17). -/
theorem readChar_of_emptyLine {s : State} {more : List LineAnswer}
    (hinbuf : s.inbuf = []) (hlines : s.lines = .line [] :: more) : readChar s = .exhausted := by
  simp [readChar, hinbuf, hlines]

/-- With no character and no answer the line source is waited for (R101). -/
theorem readChar_of_no_answer {s : State} (hinbuf : s.inbuf = []) (hlines : s.lines = []) :
    readChar s = .waiting := by
  simp [readChar, hinbuf, hlines]

/-- `in` with a legal destination waits when the read waits (R101). -/
theorem exec_inp_reg_of_waiting {r : RegIdx} {s : State} (h : readChar s = .waiting) :
    exec (.inp (.reg r)) s = .fault .awaitingLine := by
  simp [exec, execIn, h]

/-- Settles O27, by what `readChar` answers in the two cases. -/
theorem inWithoutLineStopsOrWaits : Obligations.InWithoutLineStopsOrWaits := by
  intro s r hinbuf
  refine ⟨fun more hlines => ?_, fun hlines => ?_⟩
  · exact inp_reg_faultsWith_inputExhausted (readChar_of_emptyLine hinbuf hlines)
  · exact exec_inp_reg_of_waiting (readChar_of_no_answer hinbuf hlines)

end Sys2Proof.Machine
end

section
/-! PROOFS. When a step is taken and how it ends (spec/40_execution_cycle.md R91, R101, spec/60_exceptions.md R236):
no step from a terminal status, the wait of `in` and its end, and the precise fault. -/

namespace Sys2Proof.Machine

/-- Settles O32, by the four ways a step can end. -/
theorem noStepUnlessRunning : Obligations.NoStepUnlessRunning := by
  intro s
  refine ⟨fun hstep hs => ?_, step_not_running⟩
  rcases step_cases s with ⟨hne, -⟩ | ⟨-, _, _, e⟩ | ⟨-, _, _, -, -, e⟩ | ⟨-, _, -, -, -, e⟩
  · exact hne hs
  all_goals
    rw [hstep] at e
    cases e

/-- A step waits only at an `in` with a legal destination, and only for want of a character and of an answer. -/
theorem step_awaitingLine {s : State} (h : step s = .fault .awaitingLine) : s.status = .running ∧
    (∃ r, fetch s = .ok (.inp (.reg r))) ∧ s.inbuf = [] ∧ s.lines = [] := by
  rcases step_cases s with ⟨-, e⟩ | ⟨-, _, _, e⟩ | ⟨-, _, _, -, -, e⟩ | ⟨hs, r, hfetch, hinbuf, hlines, -⟩
  · rw [h] at e; cases e
  · rw [h] at e; cases e
  · rw [h] at e; cases e
  · exact ⟨hs, ⟨r, hfetch⟩, hinbuf, hlines⟩

/-- The opcode read at `pc` is that of the instruction fetched there. -/
theorem opcodeCell_of_fetch {s : State} {i : Instr} (h : fetch s = .ok i) : opcodeCell s = i.opcode :=
  (opcode_of_fetch h).1.symm

/-- Settles O33, by the ways a step from Running can end. -/
theorem runningStepsUnlessWaiting : Obligations.RunningStepsUnlessWaiting := by
  intro s hs
  rcases step_cases s with ⟨hne, -⟩ | ⟨-, _, _, e⟩ | ⟨-, _, _, -, -, e⟩ | ⟨-, r, hfetch, hinbuf, hlines, e⟩
  · exact absurd hs hne
  · exact .inl ⟨_, e⟩
  · exact .inl ⟨_, e⟩
  · exact .inr ⟨e, hinbuf, hlines, by rw [opcodeCell_of_fetch hfetch]; rfl⟩

theorem boundaryAction_of_not_out {i : Instr} (h : i.opcode ≠ 19#16) (t : State) : boundaryAction i t = t := by
  rw [boundaryAction, if_neg fun hboundary => h hboundary.1]

/-- Settles O34: the fetch does not read the LINE port, so the same `in` is executed with the answer there. -/
theorem waitEndsWithAnswer : Obligations.WaitEndsWithAnswer := by
  intro s ans hwait
  obtain ⟨hs, ⟨r, hfetch⟩, hinbuf, hlines⟩ := step_awaitingLine hwait
  have hans : (s.answerLine ans).lines = [ans] := by rw [State.answerLine_lines, hlines, List.nil_append]
  have hstep : step (s.answerLine ans) = afterExec (.inp (.reg r)) (exec (.inp (.reg r)) (s.answerLine ans)) :=
    step_of_fetch hs hfetch
  have hnoLine : readChar (s.answerLine ans) = .exhausted → step (s.answerLine ans) = .next { s with
      lines := [ans], status := .faulted ⟨.inputExhausted, s.pc, some 20#16⟩ } := by
    intro hread
    rw [hstep, inp_reg_faultsWith_inputExhausted hread, ← hans]
    rfl
  match ans with
  | .line (c :: rest) =>
    rw [hstep, exec_inp_reg_of_char (readChar_of_line_cons (s := s.answerLine _) hinbuf hans), afterExec,
      boundaryAction_of_not_out (by simp [Instr.opcode])]
    refine ⟨_, rfl, ?_, by simp⟩
    rintro _ _ ⟨⟩
    exact ⟨hs, rfl, rfl⟩
  | .line [] => exact ⟨_, hnoLine (readChar_of_emptyLine hinbuf hans), nofun, fun _ => rfl⟩
  | .noLine => exact ⟨_, hnoLine (readChar_of_noLine hinbuf hans), nofun, fun _ => rfl⟩

/-- A step that answers a next state took a fault that records the opcode cell, or completed. -/
theorem step_next_recorded {s s' : State} (h : step s = .next s') :
    (∃ k, s' = s.faulted k (recordedOpcode s)) ∨
      ∃ i t, fetch s = .ok i ∧ CommitsTo i s t ∧ s' = boundaryAction i t := by
  have hs : s.status = .running := (step_next_cases h).1
  cases hfetch : fetch s with
  | error e =>
    obtain ⟨k, hraise⟩ := raiseFetch_of_fetch hfetch
    rw [step_of_fetch_error hs hfetch, hraise] at h
    cases h
    exact .inl ⟨k, rfl⟩
  | ok i =>
    rw [step_of_fetch hs hfetch] at h
    rcases exec_cases i s with ⟨k, e⟩ | ⟨t, hcommits, e⟩ | ⟨-, -, -, -, e⟩ <;> rw [e] at h <;> cases h
    · exact .inl ⟨k, by rw [boundaryAction_faulted, recordedOpcode_of_fetch hfetch]⟩
    · exact .inr ⟨i, t, rfl, hcommits, rfl⟩

/-- The controller leaves `status`, or ends the run as Exhausted (R209). -/
theorem boundaryAction_status (i : Instr) (t : State) :
    (boundaryAction i t).status = t.status ∨ (boundaryAction i t).status = .exhausted := by
  rcases boundaryAction_cases i t with e | ⟨-, -, -, -, e⟩ <;> rw [e]
  · exact .inl rfl
  · rcases controllerBoundary_cases t with e | ⟨-, -, -, e⟩ | ⟨-, -, e⟩ | ⟨-, -, -, -, e⟩ | ⟨-, -, -, -, e⟩ <;>
      rw [e]
    · exact .inl rfl
    · exact .inl t.arm_status
    · exact .inl t.accept_status
    · exact .inr t.exhaust_status
    · exact .inl t.retry_status

/-- An instruction that completes, with the boundary action after it, does not end Faulted. -/
theorem completed_status_ne_faulted {i : Instr} {s t : State} (hs : s.status = .running) (h : CommitsTo i s t)
    (f : FaultRecord) : (boundaryAction i t).status ≠ .faulted f := by
  intro hf
  rcases boundaryAction_status i t with e | e <;> rw [hf] at e
  · rcases commits_status h with ht | ⟨-, ht⟩ <;> rw [ht] at e
    · rw [hs] at e
      cases e
    · cases e
  · cases e

/-- Settles O31: a step that ends Faulted did not complete, so it took one fault from the state before it. -/
theorem faultChangesOnlyStatus : Obligations.FaultChangesOnlyStatus := by
  intro s s' f hstep hf
  rcases step_next_recorded hstep with ⟨k, rfl⟩ | ⟨i, t, -, hcommits, rfl⟩
  · cases hf
    exact ⟨rfl, rfl, rfl⟩
  · exact absurd hf (completed_status_ne_faulted (step_next_cases hstep).1 hcommits f)

end Sys2Proof.Machine
end

section
/-! PROOFS. What a whole step leaves unchanged (spec/10_state.md R19, R27, spec/40_execution_cycle.md R97): each part
of the state, by what an instruction that completes does to it and what the boundary action does after it. -/

namespace Sys2Proof.Machine

theorem opcodeCell_toNat_of_fetch {s : State} {i : Instr} (h : fetch s = .ok i) :
    (opcodeCell s).toNat = i.opcode.toNat := by
  rw [opcodeCell_of_fetch h]

/-- Settles O35: the boundary action keeps what the instruction left of `output`. -/
theorem outputIsAppendOnly : Obligations.OutputIsAppendOnly := by
  intro s s' hstep
  obtain ⟨-, ⟨k, op, rfl⟩ | ⟨i, t, hfetch, hcommits, rfl⟩⟩ := step_next_cases hstep
  · exact .inl rfl
  · obtain ⟨hout, -, -⟩ := boundaryAction_keeps i t
    rw [hout, opcodeCell_toNat_of_fetch hfetch]
    rcases commits_output hcommits with h | ⟨a, c, rfl, h⟩
    · exact .inl h
    · exact .inr ⟨c, h, rfl⟩

theorem boundaryAction_of_disabled (i : Instr) {t : State} (h : t.cfg.calEnable = false) :
    boundaryAction i t = t := by
  simp [boundaryAction, h]

/-- No step changes the configuration (R201). -/
theorem step_cfg {s s' : State} (hstep : step s = .next s') : s'.cfg = s.cfg := by
  obtain ⟨-, ⟨k, op, rfl⟩ | ⟨i, t, -, hcommits, rfl⟩⟩ := step_next_cases hstep
  · rfl
  · obtain ⟨-, -, -, -, hcfg⟩ := commits_controller hcommits
    obtain ⟨-, hkeep, -⟩ := boundaryAction_keeps i t
    rw [hkeep, hcfg]

/-- Settles O36: without a boundary action the instruction alone acts, and it keeps all of the controller. -/
theorem controllerStateChangesOnlyAtOut : Obligations.ControllerStateChangesOnlyAtOut := by
  intro s s' hstep
  refine ⟨step_cfg hstep, fun c hcp => step_cp hcp hstep, fun hidle => ?_⟩
  obtain ⟨-, ⟨k, op, rfl⟩ | ⟨i, t, hfetch, hcommits, rfl⟩⟩ := step_next_cases hstep
  · exact ⟨rfl, rfl, rfl, rfl⟩
  · obtain ⟨hcp, hcal, hcand, hscan, hcfg⟩ := commits_controller hcommits
    have hnone : boundaryAction i t = t := by
      rcases hidle with hop | hdisabled
      · rw [opcodeCell_toNat_of_fetch hfetch] at hop
        exact boundaryAction_of_not_out (fun hout => hop (by rw [hout]; rfl)) t
      · exact boundaryAction_of_disabled i (by rw [hcfg, hdisabled])
    rw [hnone]
    exact ⟨hcp, hcal, hcand, hscan⟩

/-- A register other than the one written reads as before (R11). -/
theorem getElem_set_of_ne {x : Vector Word 8} {q r : RegIdx} {v : Word} (h : q ≠ r) : (x.set q v)[r] = x[r] :=
  Vector.getElem_set_ne q.isLt r.isLt (fun hval => h (Fin.ext hval))

/-- A register that the boundary action changes is the designated one at the arming write, or any at a retry
(R205, R207). -/
theorem boundaryAction_x (i : Instr) (t : State) (r : RegIdx) : (boundaryAction i t).x[r] = t.x[r] ∨
    ((∃ a, i = .out a) ∧ t.cfg.calEnable = true ∧
      (t.calState = .idle ∧ r = t.cfg.calReg ∨ t.calState = .testing)) := by
  rcases boundaryAction_cases i t with e | ⟨a, hi, -, hcal, e⟩ <;> rw [e]
  · exact .inl rfl
  · rcases controllerBoundary_cases t with e | ⟨hidle, -, -, e⟩ | ⟨-, -, e⟩ | ⟨-, -, -, -, e⟩ |
      ⟨htesting, -⟩
    · exact .inl (by rw [e])
    · by_cases hr : r = t.cfg.calReg
      · exact .inr ⟨⟨a, hi⟩, hcal, .inl ⟨hidle, hr⟩⟩
      · exact .inl (by rw [e, State.arm_x, getElem_set_of_ne (Ne.symm hr)])
    · exact .inl (by rw [e, State.accept_x])
    · exact .inl (by rw [e, State.exhaust_x])
    · exact .inr ⟨⟨a, hi⟩, hcal, .inr htesting⟩

/-- The twelve instructions with a destination (R63). -/
theorem opcode_mem_of_dsts {i : Instr} {o : Dst} (h : i.dsts = [o]) :
    i.opcode.toNat ∈ ([1, 3, 4, 5, 9, 10, 11, 12, 13, 14, 15, 20] : List Nat) := by
  have htable : ∀ n < 22, dstCounts[n]? = some 1 →
      n ∈ ([1, 3, 4, 5, 9, 10, 11, 12, 13, 14, 15, 20] : List Nat) := by decide
  have hone : dstCounts[i.opcode.toNat]? = some 1 := by rw [dstCounts_opcode, h]; rfl
  exact htable _ (List.getElem?_eq_some_iff.1 hone).1 hone

/-- The operand word a of a fetched instruction with a destination is the cell of that destination (R60). -/
theorem read_of_fetch_dst {s : State} {i : Instr} {o : Dst} (hfetch : fetch s = .ok i) (h : i.dsts = [o]) :
    s.mem.read (s.pc.toNat + 1) = cellOfDst o :=
  (word_of_fetch hfetch (by simp [encode, h])).2

/-- Settles O37: the instruction writes its destination only, and the boundary action the registers listed. -/
theorem registersWrittenOnlyAsListed : Obligations.RegistersWrittenOnlyAsListed := by
  intro s s' r hstep hne
  obtain ⟨-, ⟨k, op, rfl⟩ | ⟨i, t, hfetch, hcommits, rfl⟩⟩ := step_next_cases hstep
  · exact absurd rfl hne
  · rw [opcodeCell_toNat_of_fetch hfetch]
    obtain ⟨-, hcal, -, -, hcfg⟩ := commits_controller hcommits
    rcases boundaryAction_x i t r with hsame | ⟨⟨a, rfl⟩, henabled, hwrite⟩
    · rw [hsame] at hne
      rcases commits_x hcommits with hx | ⟨q, v, hdst, hx⟩
      · exact absurd (by rw [hx]) hne
      · have hq : q = r := by
          by_contra hqr
          exact hne (by rw [hx, getElem_set_of_ne hqr])
        rw [read_of_fetch_dst hfetch hdst, hq]
        exact .inl ⟨opcode_mem_of_dsts hdst, regCell_toNat r⟩
    · rw [hcfg, hcal] at hwrite
      exact .inr ⟨rfl, hcfg ▸ henabled, hwrite⟩

/-- What a step does to memory: nothing, the one cell of a `wmem`, or the checkpoint's at a retry (R43, R207). -/
theorem step_mem {s s' : State} (hstep : step s = .next s') :
    s'.mem = s.mem ∨
    (∃ a b, ∃ v w : Word, fetch s = .ok (.wmem a b) ∧ Denotes a s v ∧
      s'.mem = s.mem.write v.toNat (w.setWidth 16)) ∨
    (∃ a c, fetch s = .ok (.out a) ∧ s.cfg.calEnable = true ∧ s.calState = .testing ∧ s.cp = some c ∧
      s'.mem = c.mem) := by
  obtain ⟨-, ⟨k, op, rfl⟩ | ⟨i, t, hfetch, hcommits, rfl⟩⟩ := step_next_cases hstep
  · exact .inl rfl
  · obtain ⟨hcp, hcal, -, -, hcfg⟩ := commits_controller hcommits
    rcases boundaryAction_restores i t with ⟨hmem, -⟩ | ⟨a, c, rfl, henabled, htesting, hc, hmem, -⟩
    · rw [hmem]
      rcases commits_mem hcommits with h | ⟨a, b, v, w, rfl, ha, -, h⟩
      · exact .inl h
      · exact .inr (.inl ⟨a, b, v, w, hfetch, ha, h⟩)
    · exact .inr (.inr ⟨a, c, hfetch, hcfg ▸ henabled, hcal ▸ htesting, hcp ▸ hc, hmem⟩)

theorem Denotes.wf {o : Src} {s : State} {v : Word} (h : Denotes o s v) : o.wf = true := by
  cases o with
  | lit _ => rfl
  | reg _ => rfl
  | invalid _ => exact h.elim

/-- Settles O38: the cell that a `wmem` writes is the one at the value of its operand a. -/
theorem memoryWrittenOnlyByWmemOrRestore : Obligations.MemoryWrittenOnlyByWmemOrRestore := by
  intro s s' n hm hstep hne
  rcases step_mem hstep with h | ⟨a, b, v, w, hfetch, ha, h⟩ | ⟨a, c, hfetch, henabled, htesting, hc, h⟩
  · exact absurd (by rw [h]) hne
  · have hn : v.toNat = n := by
      by_contra hvn
      exact hne (by rw [h, Memory.read_write_ne hm (Ne.symm hvn)])
    have hcell : s.mem.read (s.pc.toNat + 1) = cellOfSrc a := (word_of_fetch hfetch rfl).2
    refine .inl ⟨opcodeCell_toNat_of_fetch hfetch, v, ?_, hn⟩
    rw [hcell, srcOfCell_cellOfSrc ha.wf]
    exact ha
  · exact .inr ⟨opcodeCell_toNat_of_fetch hfetch, henabled, htesting, c, hc, h⟩

/-- Settles O43: a `wmem` stores a Word, so the cell it writes is none of those above 32767. -/
theorem noStepMakesNonWordCell : Obligations.NoStepMakesNonWordCell := by
  intro s s' n hm hstep hbig
  rcases step_mem hstep with h | ⟨a, b, v, w, -, -, h⟩ | ⟨a, c, -, -, -, hc, h⟩
  · exact .inl (by rw [h])
  · by_cases hn : n = v.toNat
    · have hword : (s'.mem.read n).toNat = w.toNat := by
        rw [h, Memory.toNat_read_write_word hm, if_pos hn]
      have := word_le w
      omega
    · exact .inl (by rw [h, Memory.read_write_ne hm hn])
  · exact .inr ⟨c, hc, h⟩

/-- Settles O39: one element at the top by the instruction, or the whole stack by a restore. -/
theorem stackChangesByOneElement : Obligations.StackChangesByOneElement := by
  intro s s' hstep
  obtain ⟨-, ⟨k, op, rfl⟩ | ⟨i, t, hfetch, hcommits, rfl⟩⟩ := step_next_cases hstep
  · exact .inl rfl
  · rw [opcodeCell_toNat_of_fetch hfetch]
    obtain ⟨hcp, hcal, -⟩ := commits_controller hcommits
    rcases boundaryAction_restores i t with ⟨-, hstack, -⟩ | ⟨a, c, rfl, -, htesting, hc, -, hstack, -⟩ <;>
      rw [hstack]
    · rcases commits_stack hcommits with h | ⟨hop, h⟩ | ⟨hop, h⟩
      · exact .inl h
      · exact .inr (.inl ⟨by rcases hop with hop | hop <;> simp [hop], h⟩)
      · exact .inr (.inr (.inl ⟨by rcases hop with hop | hop <;> simp [hop], h⟩))
    · exact .inr (.inr (.inr ⟨rfl, hcal ▸ htesting, c, hcp ▸ hc, rfl⟩))

/-- Settles O40: `in` alone touches `lines`, which no boundary action does; `inbuf` is also restored. -/
theorem lineSourceAskedOnlyByInWhenEmpty : Obligations.LineSourceAskedOnlyByInWhenEmpty := by
  intro s s' hstep
  obtain ⟨-, ⟨k, op, rfl⟩ | ⟨i, t, hfetch, hcommits, rfl⟩⟩ := step_next_cases hstep
  · exact ⟨fun h => absurd rfl h, fun h => absurd rfl h⟩
  · obtain ⟨-, -, hkeep⟩ := boundaryAction_keeps i t
    rw [opcodeCell_toNat_of_fetch hfetch, hkeep]
    obtain ⟨-, hcal, -⟩ := commits_controller hcommits
    refine ⟨fun hlines => ?_, fun hinbuf => ?_⟩
    · rcases commits_input hcommits with ⟨-, h⟩ | ⟨hop, h | ⟨hempty, hans⟩⟩
      · exact absurd h hlines
      · exact absurd h hlines
      · exact ⟨by rw [hop]; rfl, hempty, hans⟩
    · rcases boundaryAction_restores i t with ⟨-, -, -, h⟩ | ⟨a, c, rfl, -, htesting, -⟩
      · rw [h] at hinbuf
        rcases commits_input hcommits with ⟨h, -⟩ | ⟨hop, -⟩
        · exact absurd h hinbuf
        · exact .inl (by rw [hop]; rfl)
      · exact .inr ⟨rfl, hcal ▸ htesting⟩

/-- The cell 0 is fetched as `halt` (R63). -/
theorem fetch_halt {s : State} (hpc : s.pc.toNat ≤ 32767) (hop : opcodeCell s = 0#16) : fetch s = .ok .halt := by
  rw [fetch, fetchWindow_eq_cons hpc, hop]
  rfl

theorem step_halt {s : State} (hs : s.status = .running) (hfetch : fetch s = .ok .halt) :
    step s = .next { s with status := .halted, pc := BitVec.ofNat 16 (s.pc.toNat + 1) } := by
  rw [step_of_fetch hs hfetch, haltEndsRun, afterExec, boundaryAction_of_not_out (by decide)]

/-- Settles O41: the next fetch reads the cell that was written, and the step after it is the `halt` or the fault
of that cell. -/
theorem storeSeenByNextFetch : Obligations.StoreSeenByNextFetch := by
  intro s t a b va vb hm hs ha hb haddr hexec
  rw [exec_wmem_of ha hb] at hexec
  cases hexec
  generalize ht : (s.storeCell va.toNat (vb.setWidth 16)).advance 2 = t
  have hts : t.status = .running := by rw [← ht]; exact hs
  have hpc : t.pc.toNat = va.toNat := by
    have hva := word_le va
    rw [← ht, State.advance_pc, BitVec.toNat_ofNat, State.storeCell_pc]
    omega
  have hrange : t.pc.toNat ≤ 32767 := hpc ▸ word_le va
  have hcell : opcodeCell t = vb.setWidth 16 := by
    rw [opcodeCell, hpc, ← ht]
    exact Memory.read_write_same hm
  refine ⟨hcell, fun hzero => ?_, fun hbig => ?_⟩
  · exact step_halt hts (fetch_halt hrange (by rw [hcell, hzero]; rfl))
  · have hop : 21 < (opcodeCell t).toNat := by
      rw [hcell, BitVec.toNat_setWidth_of_le (by decide)]
      exact hbig
    rw [← hcell]
    exact illegalOpcodeFaults t hts hrange hop

end Sys2Proof.Machine
end

section
/-! PROOFS. The controller (spec/47_checkpoint_calibration.md R190 to R210): the capture, the boundary action after an
`out` in each state of the controller, the candidate, and the plain engine without it. -/

namespace Sys2Proof.Machine

/-- Settles O44, by the two branches of `capture`. -/
theorem captureSnapshotsOnce : Obligations.CaptureSnapshotsOnce := by
  intro s
  refine ⟨fun hnone => ?_, s.capture_cp_some⟩
  simp [State.capture, hnone, State.snapshot]

/-- The effect of an `out` whose operand has the value `v`, before the boundary action (R174). -/
def State.afterOut (s : State) (v : Word) : State := (s.writeChar v).advance 1

/-- With CAL_ENABLE true, a step at an `out` is the `out` and then the controller (R97). -/
theorem step_out {s : State} {a : Src} {v : Word} (hs : s.status = .running) (hfetch : fetch s = .ok (.out a))
    (ha : Denotes a s v) (henabled : s.cfg.calEnable = true) :
    step s = .next (controllerBoundary (s.afterOut v)) := by
  rw [step_of_fetch hs hfetch, exec_out_of ha, afterExec, boundaryAction, if_pos ⟨rfl, hs, henabled⟩,
    State.afterOut]

section

variable {t : State}

theorem controllerBoundary_arm (hidle : t.calState = .idle) (harm : CompletedAt t.cfg.armStr 0 t.output)
    (hzero : t.x[t.cfg.calReg] = 0#15) : controllerBoundary t = t.arm := by
  simp only [controllerBoundary, hidle, endsWith_iff.2 harm, hzero, BEq.rfl, Bool.and_self, if_true]

theorem controllerBoundary_idle (hidle : t.calState = .idle)
    (h : ¬ (CompletedAt t.cfg.armStr 0 t.output ∧ t.x[t.cfg.calReg] = 0#15)) : controllerBoundary t = t := by
  rw [← endsWith_iff, ← beq_iff_eq (b := 0#15), ← Bool.and_eq_true] at h
  simp only [controllerBoundary, hidle, if_neg h]

theorem controllerBoundary_accept (htesting : t.calState = .testing)
    (hacc : CompletedAt t.cfg.accStr t.scanBase t.output) : controllerBoundary t = t.accept := by
  simp only [controllerBoundary, htesting, endsWith_iff.2 hacc, if_true]

theorem controllerBoundary_testing (htesting : t.calState = .testing)
    (hacc : ¬ CompletedAt t.cfg.accStr t.scanBase t.output)
    (hrej : ¬ CompletedAt t.cfg.rejStr t.scanBase t.output) : controllerBoundary t = t := by
  simp [controllerBoundary, htesting, endsWith_false_iff.2 hacc, endsWith_false_iff.2 hrej]

theorem controllerBoundary_exhaust (htesting : t.calState = .testing) (hlast : t.candidate = t.cfg.candLast)
    (hacc : ¬ CompletedAt t.cfg.accStr t.scanBase t.output)
    (hrej : CompletedAt t.cfg.rejStr t.scanBase t.output) : controllerBoundary t = t.exhaust := by
  simp [controllerBoundary, htesting, endsWith_false_iff.2 hacc, endsWith_iff.2 hrej, hlast]

theorem controllerBoundary_retry (htesting : t.calState = .testing) (hlast : t.candidate ≠ t.cfg.candLast)
    (hacc : ¬ CompletedAt t.cfg.accStr t.scanBase t.output)
    (hrej : CompletedAt t.cfg.rejStr t.scanBase t.output) : controllerBoundary t = t.retry := by
  simp [controllerBoundary, htesting, endsWith_false_iff.2 hacc, endsWith_iff.2 hrej, hlast]

/-- After Accepted the controller never acts (decision D25). -/
theorem controllerBoundary_accepted (haccepted : t.calState = .accepted) : controllerBoundary t = t := by
  simp only [controllerBoundary, haccepted]

theorem State.arm_of_no_checkpoint (h : t.cp = none) : t.arm =
    { t with cp := some t.snapshot, scanBase := t.output.length,
             x := t.x.set t.cfg.calReg t.candidate, calState := .testing } := by
  simp [State.arm, State.capture, h]

theorem State.retry_of_checkpoint {c : Checkpoint} (h : t.cp = some c) : t.retry =
    { t with scanBase := t.output.length, mem := c.mem, stack := c.stack, pc := c.pc, inbuf := c.inbuf,
             x := c.x.set t.cfg.calReg (t.candidate + 1#15), candidate := t.candidate + 1#15 } := by
  simp [State.retry, State.restore_some t c h, State.restoreFrom]

/-- A retry writes the next candidate to the designated register (R207). -/
theorem State.retry_x_calReg (t : State) {r : RegIdx} (hr : r = t.cfg.calReg) : t.retry.x[r] = t.retry.candidate := by
  subst hr
  exact Vector.getElem_set_self t.cfg.calReg.isLt

end

/-- Settles O47, by whether the marker is completed with the designated register at 0. -/
theorem outArmsController : Obligations.OutArmsController := by
  intro s a v hs hfetch ha henabled hidle hnone
  rw [step_out hs hfetch ha henabled]
  refine ⟨fun harm hzero => ?_, fun hnot => ?_⟩
  · rw [controllerBoundary_arm (t := s.afterOut v) hidle harm hzero,
      State.arm_of_no_checkpoint (t := s.afterOut v) hnone]
    rfl
  · rw [controllerBoundary_idle (t := s.afterOut v) hidle hnot]
    rfl

/-- Settles O48: acceptance is tested first. -/
theorem acceptanceOracleAccepts : Obligations.AcceptanceOracleAccepts := by
  intro s a v hs hfetch ha henabled htesting
  rw [step_out hs hfetch ha henabled]
  refine ⟨fun hacc => ?_, fun hacc hrej => ?_⟩
  · rw [controllerBoundary_accept (t := s.afterOut v) htesting hacc]
    rfl
  · rw [controllerBoundary_testing (t := s.afterOut v) htesting hacc hrej]
    rfl

/-- Settles O49: below the last candidate a rejection is a retry. -/
theorem rejectionOracleRetries : Obligations.RejectionOracleRetries := by
  intro s a v c hs hfetch ha henabled htesting hcp hcand hacc hrej
  rw [step_out hs hfetch ha henabled, controllerBoundary_retry (t := s.afterOut v) htesting hcand hacc hrej,
    State.retry_of_checkpoint (t := s.afterOut v) hcp]
  rfl

/-- Settles O50: at the last candidate a rejection ends the run. -/
theorem lastRejectionExhausts : Obligations.LastRejectionExhausts := by
  intro s a v hs hfetch ha henabled htesting hcand hacc hrej
  refine ⟨(s.afterOut v).exhaust, ?_, rfl, rfl⟩
  rw [step_out hs hfetch ha henabled, controllerBoundary_exhaust (t := s.afterOut v) htesting hcand hacc hrej]

/-- Settles O51, by the branch of Accepted. -/
theorem acceptedControllerNeverActs : Obligations.AcceptedControllerNeverActs := by
  intro s a v hs hfetch ha henabled haccepted
  rw [step_out hs hfetch ha henabled, controllerBoundary_accepted (t := s.afterOut v) haccepted]
  rfl

/-- Settles O53: only a retry writes `candidate`, and it writes the designated register with it. -/
theorem candidateStepsUpByOne : Obligations.CandidateStepsUpByOne := by
  intro s s' hstep
  obtain ⟨-, ⟨k, op, rfl⟩ | ⟨i, t, hfetch, hcommits, rfl⟩⟩ := step_next_cases hstep
  · exact .inl rfl
  · obtain ⟨-, hcal, hcand, -, hcfg⟩ := commits_controller hcommits
    rcases boundaryAction_cases i t with e | ⟨a, rfl, -, -, e⟩ <;> rw [e]
    · exact .inl hcand
    · rcases controllerBoundary_cases t with e | ⟨-, -, -, e⟩ | ⟨-, -, e⟩ | ⟨-, -, -, -, e⟩ |
        ⟨htesting, -, -, hlast, e⟩ <;> rw [e]
      · exact .inl hcand
      · exact .inl (t.arm_candidate.trans hcand)
      · exact .inl hcand
      · exact .inl hcand
      · rw [hcand, hcfg] at hlast
        exact .inr ⟨by rw [opcodeCell_toNat_of_fetch hfetch]; rfl, hcal ▸ htesting, hlast,
          by rw [State.retry_candidate, hcand],
          t.retry_x_calReg (by rw [hcfg])⟩

end Sys2Proof.Machine
end

section
/-! PROOFS. The plain engine (spec/47_checkpoint_calibration.md R201, decision D23): no instruction reads the
configuration, and with CAL_ENABLE false the boundary action does not either. -/

namespace Sys2Proof.Machine

/-- The same state under another configuration. -/
def State.withCfg (s : State) (c : Config) : State := { s with cfg := c }

/-- The same answer under another configuration. -/
def answerWithCfg (c : Config) : Result → Result
  | .next t => .next (t.withCfg c)
  | .fault f => .fault f
  | .refused q => .refused q

section

variable {s : State} {c : Config}

theorem resolve_withCfg (o : Src) : resolve o (s.withCfg c) = resolve o s := by
  cases o <;> rfl

theorem withValue_withCfg {op : Cell} {o : Src} {k k' : Word → Result}
    (h : ∀ v, k' v = answerWithCfg c (k v)) :
    withValue op o (s.withCfg c) k' = answerWithCfg c (withValue op o s k) := by
  unfold withValue
  rw [resolve_withCfg]
  cases resolve o s with
  | none => rfl
  | some v => exact h v

theorem withDest_withCfg {op : Cell} {o : Dst} {k k' : RegIdx → Result}
    (h : ∀ r, k' r = answerWithCfg c (k r)) :
    withDest op o (s.withCfg c) k' = answerWithCfg c (withDest op o s k) := by
  cases o with
  | reg r => exact h r
  | invalid w => rfl

theorem withPop_withCfg {op : Cell} {k : Word → State → Result}
    (h : ∀ v t, k v (t.withCfg c) = answerWithCfg c (k v t)) :
    withPop op (s.withCfg c) k = answerWithCfg c (withPop op s k) := by
  rcases withPop_cases op s k with ⟨st, v, hstack, e⟩ | ⟨hempty, e⟩ <;> rw [e]
  · exact (withPop_concat (s := s.withCfg c) hstack).trans (h v s.dropTop)
  · exact withPop_nil (s := s.withCfg c) hempty

theorem ite_answerWithCfg {p : Prop} [Decidable p] {a b a' b' : Result} (ha : a' = answerWithCfg c a)
    (hb : b' = answerWithCfg c b) : (if p then a' else b') = answerWithCfg c (if p then a else b) := by
  rw [ha, hb, apply_ite (answerWithCfg c)]

theorem unary_withCfg {op : Cell} {f : Word → Word} {a : Dst} {b : Src} :
    unary op f a b (s.withCfg c) = answerWithCfg c (unary op f a b s) :=
  withDest_withCfg fun _ => withValue_withCfg fun _ => rfl

theorem binary_withCfg {op : Cell} {f : Word → Word → Word} {a : Dst} {b d : Src} :
    binary op f a b d (s.withCfg c) = answerWithCfg c (binary op f a b d s) :=
  withDest_withCfg fun _ => withValue_withCfg fun _ => withValue_withCfg fun _ => rfl

/-- Reading a character does not depend on the configuration (R177). -/
theorem execIn_withCfg (a : Dst) : execIn a (s.withCfg c) = answerWithCfg c (execIn a s) := by
  refine withDest_withCfg fun r => ?_
  rcases readChar_cases s with ⟨ch, rest, hi, e⟩ | ⟨ch, rest, more, hi, hl, e⟩ | ⟨ans, more, hi, hl, hans, e⟩ |
    ⟨hi, hl, e⟩ <;> rw [e]
  · rw [readChar_of_inbuf_cons (s := s.withCfg c) hi]
    rfl
  · rw [readChar_of_line_cons (s := s.withCfg c) hi hl]
    rfl
  · rcases hans with rfl | rfl
    · rw [readChar_of_noLine (s := s.withCfg c) hi hl]
      rfl
    · rw [readChar_of_emptyLine (s := s.withCfg c) hi hl]
      rfl
  · rw [readChar_of_no_answer (s := s.withCfg c) hi hl]
    rfl

end

/-- No instruction reads or writes the configuration (R201). -/
theorem exec_withCfg (i : Instr) (s : State) (c : Config) :
    exec i (s.withCfg c) = answerWithCfg c (exec i s) := by
  cases i with
  | halt | noop => rfl
  | set _ _ | not _ _ => exact unary_withCfg
  | push _ | jmp _ | out _ => exact withValue_withCfg fun _ => rfl
  | pop _ => exact withDest_withCfg fun _ => withPop_withCfg fun _ _ => rfl
  | eq _ _ _ | gt _ _ _ | add _ _ _ | mult _ _ _ | and _ _ _ | or _ _ _ => exact binary_withCfg
  | jt _ _ | jf _ _ =>
    refine withValue_withCfg fun v => withValue_withCfg fun w => ?_
    cases nonzero v <;> rfl
  | mod _ _ _ =>
    exact withDest_withCfg fun _ => withValue_withCfg fun _ => withValue_withCfg fun _ =>
      ite_answerWithCfg rfl rfl
  | rmem _ _ =>
    exact withDest_withCfg fun _ => withValue_withCfg fun _ =>
      ite_answerWithCfg (ite_answerWithCfg rfl rfl) rfl
  | wmem _ _ =>
    exact withValue_withCfg fun _ => withValue_withCfg fun _ => ite_answerWithCfg rfl rfl
  | call _ => exact withValue_withCfg fun _ => ite_answerWithCfg rfl rfl
  | ret => exact withPop_withCfg (k := fun v t => .next (t.jump v)) fun _ _ => rfl
  | inp a => exact execIn_withCfg a

/-- With CAL_ENABLE false an answer of `exec` is the answer of the step (R97). -/
theorem afterExec_of_disabled (i : Instr) {s : State} (h : s.cfg.calEnable = false) :
    afterExec i (exec i s) = exec i s := by
  rcases exec_cases i s with ⟨k, e⟩ | ⟨t, hcommits, e⟩ | ⟨-, -, -, -, e⟩ <;> rw [e, afterExec]
  · rw [boundaryAction_faulted]
  · obtain ⟨-, -, -, -, hcfg⟩ := commits_controller hcommits
    rw [boundaryAction_of_disabled i (by rw [hcfg, h])]

theorem step_withCfg {s : State} {c : Config} (hs : s.cfg.calEnable = false) (hc : c.calEnable = false) :
    step (s.withCfg c) = answerWithCfg c (step s) := by
  by_cases hrun : s.status = .running
  · cases hfetch : fetch s with
    | error e =>
      rw [step_of_fetch_error hrun hfetch, step_of_fetch_error (s := s.withCfg c) hrun hfetch]
      cases e <;> rfl
    | ok i =>
      rw [step_of_fetch hrun hfetch, step_of_fetch (s := s.withCfg c) hrun hfetch, afterExec_of_disabled i hs,
        afterExec_of_disabled i hc, exec_withCfg]
  · rw [step_not_running hrun, step_not_running (s := s.withCfg c) hrun]
    rfl

/-- Settles O52: the step from the other configuration answers the same, that configuration apart. -/
theorem plainEngineIgnoresConfiguration : Obligations.PlainEngineIgnoresConfiguration := by
  intro s c hs hc
  refine (step_withCfg hs hc).trans ?_
  cases step s <;> rfl

end Sys2Proof.Machine
end

section
/-! PROOFS. The start of a session (spec/70_reset_and_hazards.md R260, R261, spec/20_memory.md R52): the reset values,
the image in memory and the image file. -/

namespace Sys2Proof.Machine

/-- Settles O54: the listed values are those of the definition. -/
theorem resetHasListedValues : Obligations.ResetHasListedValues :=
  ⟨fun r => Vector.getElem_replicate r.isLt, rfl, fun _ => rfl, rfl, rfl, rfl, rfl, rfl, rfl, rfl, rfl, rfl, rfl⟩

theorem launch_eq_some {cfg : Config} {image : List Cell} {lines : List LineAnswer} {s : State} :
    launch cfg image lines = some s ↔
      (cfg.valid = true ∧ image.length ≤ 32768) ∧ State.boot cfg image lines = s := by
  unfold launch
  split
  · next h => simp [h]
  · next h => simp [h]

/-- Cell n of a session's first memory is cell n of the image, or 0 beyond it (R261, decision D3). -/
theorem Memory.read_ofImage_zero (image : List Cell) (n : Nat) :
    (Memory.ofImage 0 image).read n = image.getD n 0#16 := by
  rw [← Memory.read_ofImage (a := 0), Nat.zero_add]

/-- Two bytes of the image file as one cell, low byte first (R52). -/
theorem toNat_append_bytes (lo hi : BitVec 8) : (hi ++ lo).toNat = lo.toNat + 256 * hi.toNat := by
  rw [BitVec.toNat_append, ← Nat.shiftLeft_add_eq_or_of_lt lo.isLt, Nat.shiftLeft_eq]
  omega

/-- A file of odd length is refused (decision D28). -/
theorem imageOfBytes_odd : ∀ {bytes : List (BitVec 8)}, bytes.length % 2 = 1 → imageOfBytes bytes = none
  | [], h => by cases h
  | [_], _ => rfl
  | lo :: hi :: rest, h => by
    have hrest : rest.length % 2 = 1 := by simpa [Nat.add_assoc] using h
    rw [imageOfBytes, imageOfBytes_odd hrest]

/-- The image holds the cells of the file: cell n is the bytes 2 n and 2 n + 1, low byte first (R52). -/
def HoldsBytes (image : List Cell) (bytes : List (BitVec 8)) : Prop :=
  bytes.length = 2 * image.length ∧ ∀ n, (image.getD n 0#16).toNat =
    (bytes.getD (2 * n) 0#8).toNat + 256 * (bytes.getD (2 * n + 1) 0#8).toNat

theorem holdsBytes_cons {image : List Cell} {bytes : List (BitVec 8)} (lo hi : BitVec 8)
    (h : HoldsBytes image bytes) : HoldsBytes ((hi ++ lo) :: image) (lo :: hi :: bytes) := by
  obtain ⟨hlen, hcells⟩ := h
  refine ⟨by simp only [List.length_cons, hlen]; omega, fun n => ?_⟩
  cases n with
  | zero => exact toNat_append_bytes lo hi
  | succ n => exact hcells n

/-- A file of even length has its cells as the image (R52). -/
theorem imageOfBytes_even : ∀ {bytes : List (BitVec 8)}, bytes.length % 2 = 0 →
    ∃ image, imageOfBytes bytes = some image ∧ HoldsBytes image bytes
  | [], _ => ⟨[], rfl, rfl, fun _ => rfl⟩
  | [_], h => by cases h
  | lo :: hi :: rest, h => by
    have hrest : rest.length % 2 = 0 := by simpa [Nat.add_assoc] using h
    obtain ⟨image, himage, hholds⟩ := imageOfBytes_even hrest
    exact ⟨(hi ++ lo) :: image, by rw [imageOfBytes, himage], holdsBytes_cons lo hi hholds⟩

/-- Settles O55: the first memory is the canonical form of the image, and memories in canonical form that read
alike are equal. -/
theorem launchLoadsImageVerbatim : Obligations.LaunchLoadsImageVerbatim := by
  refine ⟨fun cfg image lines s => ?_, fun bytes => ⟨imageOfBytes_odd, imageOfBytes_even⟩⟩
  rw [launch_eq_some]
  constructor
  · rintro ⟨⟨hvalid, hlen⟩, rfl⟩
    exact ⟨hvalid, hlen, Memory.ofImage_wf (by omega), Memory.read_ofImage_zero image, rfl⟩
  · rintro ⟨hvalid, hlen, hwf, hread, hs⟩
    have hmem : Memory.ofImage 0 image = s.mem :=
      Memory.ext_of_wf (Memory.ofImage_wf (by omega)) hwf fun n => by rw [hread, Memory.read_ofImage_zero]
    refine ⟨⟨hvalid, hlen⟩, ?_⟩
    rw [State.boot, hmem]
    exact hs.symm

end Sys2Proof.Machine
end

section
/-! PROOFS. The invariant of the machine: it holds at the start of a session, an instruction and a fault keep it
because they leave the controller alone, and the controller keeps it at each of its actions. -/

namespace Sys2Proof.Machine

/-- Settles O57: memory is the image's, and every other part is a reset value. -/
theorem launchEstablishesInvariant : Obligations.LaunchEstablishesInvariant := by
  intro cfg image lines s h
  obtain ⟨⟨hvalid, hlen⟩, rfl⟩ := launch_eq_some.1 h
  have hcand : cfg.candFirst.toNat ≤ cfg.candLast.toNat := by
    simp only [Config.valid, Bool.and_eq_true, decide_eq_true_eq] at hvalid
    exact hvalid.2
  exact {
    cfg_valid := hvalid
    mem_wf := Memory.ofImage_wf (by omega)
    pc_range := Nat.zero_le _
    not_armed := nofun
    disabled_idle := fun _ => rfl
    cp_iff := iff_of_true rfl rfl
    cp_ok := nofun
    scan_le := Nat.le_refl 0
    cand_first_le := Nat.le_refl _
    cand_le_last := hcand
    idle_first := fun _ => rfl
    exhausted_iff := iff_of_false nofun nofun
    fault_addr := nofun }

/-- Settles O56: the reset state is the start of the plain engine with the empty image. -/
theorem invariantHoldsAtReset : Obligations.InvariantHoldsAtReset :=
  launchEstablishesInvariant Config.plainEngine [] [] State.reset rfl

/-- An instruction leaves `pc` after its words, or at a Word (R95, R14). -/
theorem commits_pc {i : Instr} {s t : State} (h : CommitsTo i s t) :
    t.pc = BitVec.ofNat 16 (s.pc.toNat + 1 + i.operandCount) ∨ ∃ v : Word, t.pc = v.setWidth 16 := by
  cases i with
  | inp a => obtain ⟨r, c, u, -, hr, rfl⟩ := h; rw [(readChar_char hr).1]; exact .inl rfl
  | jt a b =>
    obtain ⟨v, w, -, -, rfl⟩ := h
    split
    · exact .inr ⟨w, rfl⟩
    · exact .inl rfl
  | jf a b =>
    obtain ⟨v, w, -, -, rfl⟩ := h
    split
    · exact .inl rfl
    · exact .inr ⟨w, rfl⟩
  | noop | halt => cases h; exact .inl rfl
  | set _ _ | not _ _ => obtain ⟨r, v, rfl, -, rfl⟩ := h; exact .inl rfl
  | push _ | out _ => obtain ⟨v, -, rfl⟩ := h; exact .inl rfl
  | jmp _ => obtain ⟨v, -, rfl⟩ := h; exact .inr ⟨v, rfl⟩
  | pop _ => obtain ⟨r, st, v, rfl, -, rfl⟩ := h; exact .inl rfl
  | call _ => obtain ⟨v, -, -, rfl⟩ := h; exact .inr ⟨v, rfl⟩
  | wmem _ _ => obtain ⟨v, w, -, -, rfl⟩ := h; exact .inl rfl
  | ret => obtain ⟨st, v, -, rfl⟩ := h; exact .inr ⟨v, rfl⟩
  | rmem _ _ => obtain ⟨r, v, rfl, -, -, rfl⟩ := h; exact .inl rfl
  | mod _ _ _ => obtain ⟨r, v, w, rfl, -, -, -, rfl⟩ := h; exact .inl rfl
  | eq _ _ _ | gt _ _ _ | add _ _ _ | mult _ _ _ | and _ _ _ | or _ _ _ =>
    obtain ⟨r, v, w, rfl, -, -, rfl⟩ := h; exact .inl rfl

/-- A fetched instruction that completes leaves `pc` in 0..32768: it ends inside memory (R13, R93). -/
theorem commits_pc_range {i : Instr} {s t : State} (hfetch : fetch s = .ok i) (h : CommitsTo i s t) :
    t.pc.toNat ≤ 32768 := by
  rcases commits_pc h with e | ⟨v, e⟩ <;> rw [e]
  · have hend := pc_add_operandCount_le hfetch
    rw [BitVec.toNat_ofNat]
    omega
  · rw [BitVec.toNat_setWidth_of_le (by decide)]
    exact (word_le v).trans (by decide)

theorem commits_mem_wf {i : Instr} {s t : State} (hm : s.mem.wf) (h : CommitsTo i s t) : t.mem.wf := by
  rcases commits_mem h with e | ⟨a, b, v, w, -, -, -, e⟩ <;> rw [e]
  · exact hm
  · exact Memory.write_wf v.isLt hm

theorem commits_output_length {i : Instr} {s t : State} (h : CommitsTo i s t) :
    s.output.length ≤ t.output.length := by
  rcases commits_output h with e | ⟨a, c, -, e⟩ <;> rw [e]
  rw [List.length_append]
  exact Nat.le_add_right _ _

/-- A checkpoint stays legal when the scan base moves up (R207). -/
theorem CheckpointOk.of_scanBase_le {s t : State} {c : Checkpoint} (h : CheckpointOk s c) (hcfg : t.cfg = s.cfg)
    (hscan : s.scanBase ≤ t.scanBase) : CheckpointOk t c where
  mem_wf := h.mem_wf
  pc_range := h.pc_range
  outlen_le := h.outlen_le.trans hscan
  designated_zero := by simpa only [hcfg] using h.designated_zero

/-- What leaves the controller alone, keeps memory and `pc` in range and `output` growing, does not end the run
as Exhausted and records the address of a fault, keeps the invariant. -/
theorem Inv.of_same_controller {s t : State} (h : Inv s) (hrun : s.status = .running)
    (hsame : t.cp = s.cp ∧ t.calState = s.calState ∧ t.candidate = s.candidate ∧ t.scanBase = s.scanBase ∧
      t.cfg = s.cfg)
    (hm : t.mem.wf) (hpc : t.pc.toNat ≤ 32768) (hout : s.output.length ≤ t.output.length)
    (hne : t.status ≠ .exhausted) (hfault : ∀ rec, t.status = .faulted rec → rec.addr = t.pc) : Inv t := by
  obtain ⟨hcp, hcal, hcand, hscan, hcfg⟩ := hsame
  have hcalne : s.calState ≠ .exhausted := fun he => by
    have := h.exhausted_iff.2 he
    rw [hrun] at this
    cases this
  exact {
    cfg_valid := hcfg ▸ h.cfg_valid
    mem_wf := hm
    pc_range := hpc
    not_armed := hcal ▸ h.not_armed
    disabled_idle := by rw [hcfg, hcal]; exact h.disabled_idle
    cp_iff := by rw [hcp, hcal]; exact h.cp_iff
    cp_ok := fun c hc => (h.cp_ok c (hcp ▸ hc)).of_scanBase_le hcfg (Nat.le_of_eq hscan.symm)
    scan_le := by rw [hscan]; exact h.scan_le.trans hout
    cand_first_le := by rw [hcfg, hcand]; exact h.cand_first_le
    cand_le_last := by rw [hcfg, hcand]; exact h.cand_le_last
    idle_first := by rw [hcal, hcand, hcfg]; exact h.idle_first
    exhausted_iff := iff_of_false hne (hcal ▸ hcalne)
    fault_addr := hfault }

theorem Inv.faulted {s : State} (h : Inv s) (hrun : s.status = .running) (k : Cause) (op : Option Cell) :
    Inv (s.faulted k op) :=
  h.of_same_controller hrun ⟨rfl, rfl, rfl, rfl, rfl⟩ h.mem_wf h.pc_range (Nat.le_refl _) nofun
    (by rintro _ ⟨⟩; rfl)

theorem Inv.commits {i : Instr} {s t : State} (h : Inv s) (hrun : s.status = .running)
    (hfetch : fetch s = .ok i) (hcommits : CommitsTo i s t) : Inv t := by
  have hstatus : t.status = .running ∨ t.status = .halted := by
    rcases commits_status hcommits with e | ⟨-, e⟩
    · exact .inl (e.trans hrun)
    · exact .inr e
  refine h.of_same_controller hrun (commits_controller hcommits) (commits_mem_wf h.mem_wf hcommits)
    (commits_pc_range hfetch hcommits) (commits_output_length hcommits) ?_ fun rec hrec => ?_
  · rcases hstatus with e | e <;> rw [e] <;> nofun
  · rcases hstatus with e | e <;> rw [e] at hrec <;> cases hrec

/-- What an action of the controller does outside Idle: it keeps the configuration, has a legal checkpoint, leaves
memory, `pc`, `scan_base` and `candidate` in range and takes no fault, and so keeps the invariant. -/
theorem Inv.of_action {t u : State} {c : Checkpoint} (h : Inv t) (henabled : t.cfg.calEnable = true)
    (hcfg : u.cfg = t.cfg) (hcp : u.cp = some c) (hok : CheckpointOk u c) (hm : u.mem.wf)
    (hpc : u.pc.toNat ≤ 32768) (hcal : u.calState ≠ .idle ∧ u.calState ≠ .armed)
    (hscan : u.scanBase ≤ u.output.length)
    (hcand : t.cfg.candFirst.toNat ≤ u.candidate.toNat ∧ u.candidate.toNat ≤ t.cfg.candLast.toNat)
    (hexhausted : u.status = .exhausted ↔ u.calState = .exhausted) (hfault : ∀ rec, u.status ≠ .faulted rec) :
    Inv u where
  cfg_valid := hcfg ▸ h.cfg_valid
  mem_wf := hm
  pc_range := hpc
  not_armed := hcal.2
  disabled_idle hdisabled := by rw [hcfg, henabled] at hdisabled; cases hdisabled
  cp_iff := iff_of_false (by rw [hcp]; nofun) hcal.1
  cp_ok d hd := by
    obtain rfl : c = d := Option.some.inj (hcp.symm.trans hd)
    exact hok
  scan_le := hscan
  cand_first_le := hcfg ▸ hcand.1
  cand_le_last := hcfg ▸ hcand.2
  idle_first hidle := absurd hidle hcal.1
  exhausted_iff := hexhausted
  fault_addr rec hrec := absurd hrec (hfault rec)

/-- Testing has a checkpoint, which is legal (R205, R22). -/
theorem Inv.exists_checkpoint {t : State} (h : Inv t) (htesting : t.calState = .testing) :
    ∃ c, t.cp = some c ∧ CheckpointOk t c := by
  cases hcp : t.cp with
  | none => rw [h.cp_iff.1 hcp] at htesting; cases htesting
  | some c => exact ⟨c, rfl, h.cp_ok c hcp⟩

/-- The candidate after one that is not the last is still a Word in CAND_FIRST..CAND_LAST (R207). -/
theorem Inv.next_candidate_range {t : State} (h : Inv t) (hlast : t.candidate ≠ t.cfg.candLast) :
    t.cfg.candFirst.toNat ≤ (t.candidate + 1#15).toNat ∧ (t.candidate + 1#15).toNat ≤ t.cfg.candLast.toNat := by
  have hfirst := h.cand_first_le
  have hle := h.cand_le_last
  have hne : t.candidate.toNat ≠ t.cfg.candLast.toNat := fun e => hlast (BitVec.eq_of_toNat_eq e)
  have hword := word_le t.cfg.candLast
  have hnext : (t.candidate + 1#15).toNat = t.candidate.toNat + 1 := by
    rw [BitVec.toNat_add, BitVec.toNat_ofNat]
    omega
  omega

section

variable {t : State} (h : Inv t) (hrun : t.status = .running) (henabled : t.cfg.calEnable = true)
include h hrun henabled

/-- Arming takes a snapshot of a legal state with the designated register at 0 (R205). -/
theorem Inv.arm (hidle : t.calState = .idle) (hzero : t.x[t.cfg.calReg] = 0#15) : Inv t.arm := by
  rw [State.arm_of_no_checkpoint (h.cp_iff.2 hidle)]
  exact h.of_action henabled rfl rfl ⟨h.mem_wf, h.pc_range, Nat.le_refl _, hzero⟩ h.mem_wf h.pc_range
    ⟨nofun, nofun⟩ (Nat.le_refl _) ⟨h.cand_first_le, h.cand_le_last⟩ (iff_of_false (by rw [hrun]; nofun) nofun)
    (by rw [hrun]; nofun)

/-- Acceptance changes the controller's state alone (R206). -/
theorem Inv.accept (htesting : t.calState = .testing) : Inv t.accept := by
  obtain ⟨c, hcp, hok⟩ := h.exists_checkpoint htesting
  exact h.of_action henabled rfl hcp (hok.of_scanBase_le rfl (Nat.le_refl _)) h.mem_wf h.pc_range ⟨nofun, nofun⟩
    h.scan_le ⟨h.cand_first_le, h.cand_le_last⟩ (iff_of_false (by rw [State.accept_status, hrun]; nofun) nofun)
    (by rw [State.accept_status, hrun]; nofun)

omit hrun in
/-- The last rejection ends the run in controller and status (R209). -/
theorem Inv.exhaust (htesting : t.calState = .testing) : Inv t.exhaust := by
  obtain ⟨c, hcp, hok⟩ := h.exists_checkpoint htesting
  exact h.of_action henabled rfl hcp (hok.of_scanBase_le rfl (Nat.le_refl _)) h.mem_wf h.pc_range ⟨nofun, nofun⟩
    h.scan_le ⟨h.cand_first_le, h.cand_le_last⟩ (iff_of_true rfl rfl) nofun

/-- A retry restores a legal snapshot and moves `scan_base` up to the end of `output` (R207). -/
theorem Inv.retry (htesting : t.calState = .testing) (hlast : t.candidate ≠ t.cfg.candLast) : Inv t.retry := by
  obtain ⟨c, hcp, hok⟩ := h.exists_checkpoint htesting
  rw [State.retry_of_checkpoint hcp]
  exact h.of_action henabled rfl hcp (hok.of_scanBase_le rfl h.scan_le) hok.mem_wf hok.pc_range
    (by rw [htesting]; exact ⟨nofun, nofun⟩) (Nat.le_refl _) (h.next_candidate_range hlast)
    (iff_of_false (by rw [hrun]; nofun) (by rw [htesting]; nofun)) (by rw [hrun]; nofun)

theorem Inv.controllerBoundary : Inv (controllerBoundary t) := by
  rcases controllerBoundary_cases t with e | ⟨hidle, -, hzero, e⟩ | ⟨htesting, -, e⟩ | ⟨htesting, -, -, -, e⟩ |
    ⟨htesting, -, -, hlast, e⟩ <;> rw [e]
  · exact h
  · exact h.arm hrun henabled hidle hzero
  · exact h.accept hrun henabled htesting
  · exact h.exhaust henabled htesting
  · exact h.retry hrun henabled htesting hlast

end

/-- Settles O58: a fault or an instruction keeps the invariant, and then the boundary action does. -/
theorem stepKeepsInvariant : Obligations.StepKeepsInvariant := by
  intro s s' h hstep
  obtain ⟨hrun, ⟨k, op, rfl⟩ | ⟨i, t, hfetch, hcommits, rfl⟩⟩ := step_next_cases hstep
  · exact h.faulted hrun k op
  · have ht : Inv t := h.commits hrun hfetch hcommits
    rcases boundaryAction_cases i t with e | ⟨-, -, htrun, henabled, e⟩ <;> rw [e]
    · exact ht
    · exact ht.controllerBoundary htrun henabled

end Sys2Proof.Machine
end
